-- ==== Sys2Proof/Word.lean ====
section
/-!
DEFINITION. The widths of the machine (10_state.md R38): 8-bit cells and data registers, 16-bit address registers and
instruction words, 4-, 8- and 12-bit instruction fields. There is no other width.
-/

namespace Sys2Proof

/-- A memory cell, a data register or a timer (R38). -/
abbrev Byte := BitVec 8

/-- An instruction word, `I`, `pc` or `sp` (R38). -/
abbrev Word := BitVec 16

/-- A 4-bit field of the instruction word (R9, R81). -/
abbrev Nibble := BitVec 4

/-- The index of a data register `V0`..`VF`: a 4-bit field, so always in range (R21). -/
abbrev RegIx := BitVec 4

/-- The address of a memory cell, 0x000..0xFFF (R50). -/
abbrev MemAddr := BitVec 12

/-- A 12-bit address immediate `nnn` (R81). -/
abbrev Imm12 := BitVec 12

end Sys2Proof
end

