-- ==== Sys2Proof/Config.lean ====
section
/-!
DEFINITION. What is fixed for the machine: the constants of 00_scope.md R6, and the values the spec leaves open as
constants without a value (`opaque`, no body): nothing can evaluate one or prove which value it has.
-/

namespace Sys2Proof

/-- The answer of `KeyCurrent()` (R192): no physical key is down, a key that maps to logical key `k`, or a key with no
entry in the mapping table. -/
inductive KeyAnswer where
  | none
  | mapped (k : Nibble)
  | unmapped
  deriving DecidableEq, Repr, Inhabited

namespace Config

/-- `MEM_SIZE` (R6). -/
def memSize : Nat := 4096

/-- `FONT_BASE` (R6): where the font is loaded and the base `FNT` adds. -/
def fontBase : Word := 0x000

/-- `STACK_BASE` (R6): the reset value of `sp`. -/
def stackBase : Word := 0x052

/-- `PROGRAM_BASE` (R6): the reset value of `pc` and where the ROM is loaded. -/
def programBase : Word := 0x200

/-- The most bytes a font image may have (R282). -/
def maxFont : Nat := 4096

/-- The most bytes a ROM image may have (R282). -/
def maxRom : Nat := 3584

/-- How far `KEY_SENTINEL` lies above 0x10. The spec fixes only the range 0x10..0xFF (R7, D12). Free value. -/
opaque sentinelOffset : Fin 240

/-- `KEY_SENTINEL` (R7, D12): an 8-bit value in 0x10..0xFF, otherwise open. -/
def keySentinel : Byte := BitVec.ofNat 8 (0x10 + sentinelOffset.val)

/-- The random byte drawn at a moment when the state holds none (R162, D27). Free value. -/
opaque randomByte : Nat → Byte

/-- Whether a key is down at a moment when the state holds no answer (R190, R191). Free value. -/
opaque keyPressed : Nat → Nibble → Bool

/-- What `KeyCurrent()` answers at a moment when the state holds no answer (R190, R192). Free value. -/
opaque keyCurrent : Nat → KeyAnswer

/-- Whether a tick comes before the engine's next step at a moment when the state does not say (R117, R252). Free value. -/
opaque tickNext : Nat → Bool

end Config

end Sys2Proof
end

