-- ==== Sys2Proof/Syntax.lean ====
section
/-!
DEFINITION. The 34 instructions of 30_encoding.md R95, one constructor per row of the opcode table, in the table's order.
Ignored bits (R90) are no operand: words that differ only there are the same instruction.
-/

namespace Sys2Proof

/-- The instructions of R95. `x`, `y`, `n`, `kk`, `nnn` are the fields of R81. -/
inductive Instr where
  | cls
  | ret
  | jp (nnn : Imm12)
  | call (nnn : Imm12)
  | sei (x : RegIx) (kk : Byte)
  | snei (x : RegIx) (kk : Byte)
  | ser (x y : RegIx)
  | ldi (x : RegIx) (kk : Byte)
  | addi (x : RegIx) (kk : Byte)
  | mov (x y : RegIx)
  | or (x y : RegIx)
  | and (x y : RegIx)
  | xor (x y : RegIx)
  | add (x y : RegIx)
  | sub (x y : RegIx)
  | shr (x : RegIx)
  | subn (x y : RegIx)
  | shl (x : RegIx)
  | sner (x y : RegIx)
  | lda (nnn : Imm12)
  | jpr (nnn : Imm12)
  | rnd (x : RegIx) (kk : Byte)
  | drw (x y : RegIx) (n : Nibble)
  | skup (x : RegIx)
  | skdn (x : RegIx)
  | gdt (x : RegIx)
  | wkey (x : RegIx)
  | sdt (x : RegIx)
  | sst (x : RegIx)
  | adda (x : RegIx)
  | fnt (x : RegIx)
  | bcd (x : RegIx)
  | stm (x : RegIx)
  | ldm (x : RegIx)
  deriving DecidableEq, Repr

end Sys2Proof
end

