-- ==== Sys2Proof/WellFormed.lean ====
section
/-!
DEFINITION. What a well-formed input of the machine is. An instruction's operands carry their widths in their types, so
every register index and every immediate is in range (R21, R83) and no term of `Instr` is ill-formed: `Instr.wellFormed`
says the ranges of R83 out, operand by operand. The images the host loads are lists, which can be too long (R282): there
`fontFits` and `romFits` do refuse terms.
-/

namespace Sys2Proof

/-- A register index is in 0..15 (R83). -/
def regInRange (x : RegIx) : Bool := decide (x.toNat ≤ 15)

/-- A count `n` is in 0..15 (R83). -/
def countInRange (n : Nibble) : Bool := decide (n.toNat ≤ 15)

/-- An immediate `kk` is in 0..255 (R83). -/
def byteInRange (kk : Byte) : Bool := decide (kk.toNat ≤ 255)

/-- An address immediate `nnn` is in 0..4095 (R83). -/
def addrInRange (nnn : Imm12) : Bool := decide (nnn.toNat ≤ 4095)

/-- Every operand is in the range R83 gives it. -/
def Instr.wellFormed : Instr → Bool
  | .cls => true
  | .ret => true
  | .jp nnn => addrInRange nnn
  | .call nnn => addrInRange nnn
  | .sei x kk => regInRange x && byteInRange kk
  | .snei x kk => regInRange x && byteInRange kk
  | .ser x y => regInRange x && regInRange y
  | .ldi x kk => regInRange x && byteInRange kk
  | .addi x kk => regInRange x && byteInRange kk
  | .mov x y => regInRange x && regInRange y
  | .or x y => regInRange x && regInRange y
  | .and x y => regInRange x && regInRange y
  | .xor x y => regInRange x && regInRange y
  | .add x y => regInRange x && regInRange y
  | .sub x y => regInRange x && regInRange y
  | .shr x => regInRange x
  | .subn x y => regInRange x && regInRange y
  | .shl x => regInRange x
  | .sner x y => regInRange x && regInRange y
  | .lda nnn => addrInRange nnn
  | .jpr nnn => addrInRange nnn
  | .rnd x kk => regInRange x && byteInRange kk
  | .drw x y n => regInRange x && regInRange y && countInRange n
  | .skup x => regInRange x
  | .skdn x => regInRange x
  | .gdt x => regInRange x
  | .wkey x => regInRange x
  | .sdt x => regInRange x
  | .sst x => regInRange x
  | .adda x => regInRange x
  | .fnt x => regInRange x
  | .bcd x => regInRange x
  | .stm x => regInRange x
  | .ldm x => regInRange x

/-- The font image fits in memory (R282). -/
def fontFits (font : List Byte) : Bool := decide (font.length ≤ Config.maxFont)

/-- The ROM image fits between 0x200 and the end of memory (R282). -/
def romFits (rom : List Byte) : Bool := decide (rom.length ≤ Config.maxRom)

end Sys2Proof
end

