-- ==== Sys2Proof/Decode.lean ====
section
/-!
DEFINITION. The decoder (30_encoding.md R81, R84 to R96), total on every word and on every list of bytes, and the encoder
written from the same table (R82, R95). The order of the bytes is that of the fetch: high byte first (R53).
-/

namespace Sys2Proof

/-- Why bytes are no instruction: fewer than the two bytes an instruction has (R80), or a word of one of the four illegal
sets (a) to (d) of R91. -/
inductive Reject where
  | truncated
  | illegalFamily0
  | illegalFamily8
  | illegalFamilyE
  | illegalFamilyF
  deriving DecidableEq, Repr

/-- The instruction word of two bytes, the first the high one (R53). -/
def wordOfBytes (hi lo : Byte) : Word := hi ++ lo

/-- Bits 15..8 of a word. -/
def highByte (w : Word) : Byte := w.extractLsb' 8 8

/-- Bits 7..0 of a word. -/
def lowByte (w : Word) : Byte := w.extractLsb' 0 8

/-- `fam` = `op[15:12]` (R81). -/
def fieldFam (op : Word) : Nibble := op.extractLsb' 12 4

/-- `x` = `op[11:8]` (R81). -/
def fieldX (op : Word) : RegIx := op.extractLsb' 8 4

/-- `y` = `op[7:4]` (R81). -/
def fieldY (op : Word) : RegIx := op.extractLsb' 4 4

/-- `n` = `op[3:0]` (R81). -/
def fieldN (op : Word) : Nibble := op.extractLsb' 0 4

/-- `kk` = `op[7:0]` (R81). -/
def fieldKk (op : Word) : Byte := op.extractLsb' 0 8

/-- `nnn` = `op[11:0]` (R81). -/
def fieldNnn (op : Word) : Imm12 := op.extractLsb' 0 12

/-- Family 0x0 matches the whole word (R85). -/
def decodeFamily0 (op : Word) : Except Reject Instr :=
  match op with
  | 0x00E0#16 => .ok .cls
  | 0x00EE#16 => .ok .ret
  | _ => .error .illegalFamily0

/-- Family 0x8 dispatches on the low nibble (R86). -/
def decodeFamily8 (op : Word) : Except Reject Instr :=
  match fieldN op with
  | 0x0#4 => .ok (.mov (fieldX op) (fieldY op))
  | 0x1#4 => .ok (.or (fieldX op) (fieldY op))
  | 0x2#4 => .ok (.and (fieldX op) (fieldY op))
  | 0x3#4 => .ok (.xor (fieldX op) (fieldY op))
  | 0x4#4 => .ok (.add (fieldX op) (fieldY op))
  | 0x5#4 => .ok (.sub (fieldX op) (fieldY op))
  | 0x6#4 => .ok (.shr (fieldX op))
  | 0x7#4 => .ok (.subn (fieldX op) (fieldY op))
  | 0xE#4 => .ok (.shl (fieldX op))
  | _ => .error .illegalFamily8

/-- Family 0xE dispatches on the low byte (R87). -/
def decodeFamilyE (op : Word) : Except Reject Instr :=
  match fieldKk op with
  | 0x9E#8 => .ok (.skup (fieldX op))
  | 0xA1#8 => .ok (.skdn (fieldX op))
  | _ => .error .illegalFamilyE

/-- Family 0xF dispatches on the low byte (R88). -/
def decodeFamilyF (op : Word) : Except Reject Instr :=
  match fieldKk op with
  | 0x07#8 => .ok (.gdt (fieldX op))
  | 0x0A#8 => .ok (.wkey (fieldX op))
  | 0x15#8 => .ok (.sdt (fieldX op))
  | 0x18#8 => .ok (.sst (fieldX op))
  | 0x1E#8 => .ok (.adda (fieldX op))
  | 0x29#8 => .ok (.fnt (fieldX op))
  | 0x33#8 => .ok (.bcd (fieldX op))
  | 0x55#8 => .ok (.stm (fieldX op))
  | 0x65#8 => .ok (.ldm (fieldX op))
  | _ => .error .illegalFamilyF

/-- The decoding procedure of R96 over the sixteen families of R84. The low nibble of families 5 and 9 is ignored (R89).
The last arm is family 0xF, the one value of the nibble left. -/
def decode (op : Word) : Except Reject Instr :=
  match fieldFam op with
  | 0x0#4 => decodeFamily0 op
  | 0x1#4 => .ok (.jp (fieldNnn op))
  | 0x2#4 => .ok (.call (fieldNnn op))
  | 0x3#4 => .ok (.sei (fieldX op) (fieldKk op))
  | 0x4#4 => .ok (.snei (fieldX op) (fieldKk op))
  | 0x5#4 => .ok (.ser (fieldX op) (fieldY op))
  | 0x6#4 => .ok (.ldi (fieldX op) (fieldKk op))
  | 0x7#4 => .ok (.addi (fieldX op) (fieldKk op))
  | 0x8#4 => decodeFamily8 op
  | 0x9#4 => .ok (.sner (fieldX op) (fieldY op))
  | 0xA#4 => .ok (.lda (fieldNnn op))
  | 0xB#4 => .ok (.jpr (fieldNnn op))
  | 0xC#4 => .ok (.rnd (fieldX op) (fieldKk op))
  | 0xD#4 => .ok (.drw (fieldX op) (fieldY op) (fieldN op))
  | 0xE#4 => decodeFamilyE op
  | _ => decodeFamilyF op

/-- Decoding at the head of a list of bytes, with the bytes that follow the instruction (R80: always two bytes). -/
def decodeBytes : List Byte → Except Reject (Instr × List Byte)
  | hi :: lo :: rest =>
    match decode (wordOfBytes hi lo) with
    | .ok i => .ok (i, rest)
    | .error r => .error r
  | _ => .error .truncated

/-- The instruction the decoder reads from the word `w` of `nbits` bits, numbered as the opcode table numbers them, laid out
as the hardware stores it: high byte at the lower address (R53). An instruction is one 16-bit word (R80), so the bits above
`nbits` are zero and bits above 15 belong to what follows it. -/
def decodeTableWord (nbits w : Nat) : Option Instr :=
  let op : Word := BitVec.ofNat 16 (w % 2 ^ nbits)
  match decodeBytes [highByte op, lowByte op] with
  | .ok (i, _) => some i
  | .error _ => none

/-- The word the assembler emits for an instruction (R82, R94, R95): ignored bits are 0 (R90). -/
def encode : Instr → Word
  | .cls => 0x00E0#16
  | .ret => 0x00EE#16
  | .jp nnn => 0x1#4 ++ nnn
  | .call nnn => 0x2#4 ++ nnn
  | .sei x kk => 0x3#4 ++ x ++ kk
  | .snei x kk => 0x4#4 ++ x ++ kk
  | .ser x y => 0x5#4 ++ x ++ y ++ 0x0#4
  | .ldi x kk => 0x6#4 ++ x ++ kk
  | .addi x kk => 0x7#4 ++ x ++ kk
  | .mov x y => 0x8#4 ++ x ++ y ++ 0x0#4
  | .or x y => 0x8#4 ++ x ++ y ++ 0x1#4
  | .and x y => 0x8#4 ++ x ++ y ++ 0x2#4
  | .xor x y => 0x8#4 ++ x ++ y ++ 0x3#4
  | .add x y => 0x8#4 ++ x ++ y ++ 0x4#4
  | .sub x y => 0x8#4 ++ x ++ y ++ 0x5#4
  | .shr x => 0x8#4 ++ x ++ 0x0#4 ++ 0x6#4
  | .subn x y => 0x8#4 ++ x ++ y ++ 0x7#4
  | .shl x => 0x8#4 ++ x ++ 0x0#4 ++ 0xE#4
  | .sner x y => 0x9#4 ++ x ++ y ++ 0x0#4
  | .lda nnn => 0xA#4 ++ nnn
  | .jpr nnn => 0xB#4 ++ nnn
  | .rnd x kk => 0xC#4 ++ x ++ kk
  | .drw x y n => 0xD#4 ++ x ++ y ++ n
  | .skup x => 0xE#4 ++ x ++ 0x9E#8
  | .skdn x => 0xE#4 ++ x ++ 0xA1#8
  | .gdt x => 0xF#4 ++ x ++ 0x07#8
  | .wkey x => 0xF#4 ++ x ++ 0x0A#8
  | .sdt x => 0xF#4 ++ x ++ 0x15#8
  | .sst x => 0xF#4 ++ x ++ 0x18#8
  | .adda x => 0xF#4 ++ x ++ 0x1E#8
  | .fnt x => 0xF#4 ++ x ++ 0x29#8
  | .bcd x => 0xF#4 ++ x ++ 0x33#8
  | .stm x => 0xF#4 ++ x ++ 0x55#8
  | .ldm x => 0xF#4 ++ x ++ 0x65#8

/-- The bytes of an instruction as they lie in memory, high byte first (R53). -/
def encodeBytes (i : Instr) : List Byte := [highByte (encode i), lowByte (encode i)]

end Sys2Proof
end

