-- ==== Sys2Proof/Machine/State.lean ====
section
/-!
DEFINITION. The state of the machine (10_state.md R20, with R21 to R32) and, kept apart from it in one record `env`, the
collaborators' state (R33): the display's pixels, what the host will load, the answers the environment will give, and who
moves next. Plain data throughout. After it the reasons a step can stop, and the state after reset (R34, R280).
-/

namespace Sys2Proof.Machine

/-- `PHASE`, the engine's control state (R31). -/
inductive Phase where
  | load
  | run
  | waitKey (x : RegIx)
  | halted
  deriving DecidableEq, Repr

/-- The cause of a fault of the core (R240, R244). -/
inductive Cause where
  | unknownOpcode
  | memoryFault
  deriving DecidableEq, Repr

/-- The fault record (R32, R244). Its `pc` is the register's value at the raise (R241, R242). -/
structure FaultRecord where
  cause : Cause
  instr : Word
  pc : Word
  addr : Word
  deriving DecidableEq, Repr

/-- Memory `M` (R29), as the list of its cells that differ from `Memory.unlisted`, addresses strictly rising. -/
abbrev Memory := List Host.Cell

/-- What a cell that memory does not list reads as: memory is zero-initialized at startup (R29, R34). -/
def Memory.unlisted : Byte := 0x00

/-- From address `lo` on: addresses rise, lie in memory, and no cell holds what an unlisted one reads as. -/
def Memory.wfFrom (lo : Nat) : Memory → Bool
  | [] => true
  | (a, b) :: rest => decide (lo ≤ a) && decide (a < Config.memSize) && decide (b ≠ Memory.unlisted) && Memory.wfFrom (a + 1) rest

/-- Memory is in its one canonical form. -/
def Memory.wf (m : Memory) : Bool := Memory.wfFrom 0 m

/-- The reference Display Adapter's pixel array `FB` (R185): its dimensions, and the pixels that are 1, each as
`yy * width + xx`, strictly rising. The dimensions are open parameters (R7), so they are data of the display. -/
structure Display where
  width : Nat
  height : Nat
  lit : List Nat
  deriving DecidableEq, Repr

/-- From position `lo` on: positions rise and lie below `hi`. -/
def Display.litFrom (hi lo : Nat) : List Nat → Bool
  | [] => true
  | p :: rest => decide (lo ≤ p) && decide (p < hi) && Display.litFrom hi (p + 1) rest

/-- The display has pixels (R7: dimensions are positive) and its list of lit ones is in canonical form. -/
def Display.wf (d : Display) : Bool :=
  decide (0 < d.width) && decide (0 < d.height) && Display.litFrom (d.width * d.height) 0 d.lit

/-- Who moves at a step, by the inputs of R260. -/
inductive Event where
  /-- the core's engine, or in `LOAD`, where the engine has no step (R115), the host's whole load of its images (R282) -/
  | engine
  /-- the Timer Unit's tick (R251) -/
  | tick
  /-- the reset input (R281) -/
  | reset
  /-- the host's `load(addr, byte)`: one byte, in phase `LOAD` only (R260, R67) -/
  | load (addr : MemAddr) (byte : Byte)
  /-- the host's `release`, in phase `LOAD` only (R260, R282) -/
  | release
  deriving DecidableEq, Repr

/-- Everything outside the core that the core or a step of it reads (R33, R260). Each list holds what comes next, first
first; where a list is exhausted, the free values of `Config`, applied to `moment`, take its place. -/
structure Env where
  /-- who moves at the coming steps (R117, R281) -/
  schedule : List Event
  /-- the font image the host will load (R282) -/
  font : List Byte
  /-- the program image the host will load (R282) -/
  rom : List Byte
  /-- the coming bytes of the random source (R162) -/
  random : List Byte
  /-- the coming answers of `KeyPressed` (R191) -/
  pressed : List Bool
  /-- the coming answers of `KeyCurrent` (R192) -/
  current : List KeyAnswer
  /-- the number of steps taken: the model's own, the argument of every free value -/
  moment : Nat
  /-- the reference Display Adapter (R185) -/
  display : Display
  deriving DecidableEq, Repr

/-- The state of R20 under the spec's own names, and `env` beside it. -/
structure State where
  M : Memory
  V : Vector Byte 16
  I : Word
  pc : Word
  sp : Word
  DT : Byte
  ST : Byte
  PHASE : Phase
  FAULT : Option FaultRecord
  env : Env
  deriving DecidableEq, Repr

/-- Why the machine stops with a fault. -/
inductive Fault where
  /-- Raised by `step` in phase `HALTED` unless the reset input moves: no step of the core is enabled there (R115, R245), and
  the record is handed to whoever drives the core (R262). Safe: nothing executes where the hardware would go on. -/
  | halted (record : Option FaultRecord)
  deriving DecidableEq, Repr

/-- Why the machine has no next state although no fault was raised. -/
inductive Refusal where
  /-- Answered by `exec` for an instruction that has no meaning yet. Safe. -/
  | notModelled (mnemonic : String)
  /-- Answered by `SKUP` and `SKDN` when `V[x] > 15`: the spec gives no meaning and says to refuse (R182, R183, D11). Safe. -/
  | keyIndex (value : Byte)
  /-- Answered by the host's `load` and `release` outside phase `LOAD`: the spec forbids a host write to a running core and says
  to refuse it (R67, R260, R261, U21). Safe. -/
  | hostAccess
  /-- Answered by the host's load when an image does not fit: `LoadError`, the core is never released (R243, R282). Safe. -/
  | loadError
  deriving DecidableEq, Repr

/-- The reference display at reset: every pixel 0 (R185, R280), with the default dimensions of R7. -/
def Display.reset : Display := { width := 64, height := 32, lit := [] }

/-- The environment at reset: nothing has been supplied from outside yet. -/
def Env.reset : Env :=
  { schedule := [], font := [], rom := [], random := [], pressed := [], current := [], moment := 0, display := Display.reset }

/-- The state after reset and before the load (R34, R280). -/
def State.reset : State :=
  { M := []
    V := Vector.replicate 16 0x00
    I := 0x0000
    pc := Config.programBase
    sp := Config.stackBase
    DT := 0x00
    ST := 0x00
    PHASE := .load
    FAULT := none
    env := Env.reset }

end Sys2Proof.Machine
end

