-- ==== Sys2Proof/Machine/Ops.lean ====
section
/-!
DEFINITION. The named operations over memory, registers and the environment, and raising a fault. Every read and write of
the state by an instruction goes through one of them.
-/

namespace Sys2Proof.Machine

/-- The byte a cell holds (R57, R60). Addresses are checked before an access (`checked`), so the answer for one outside
memory is never used. -/
def Memory.read : Memory → Nat → Byte
  | [], _ => Memory.unlisted
  | (c, x) :: rest, a => if c = a then x else Memory.read rest a

/-- Sets one cell and changes nothing else (R57). Keeps the canonical form: writing what an unlisted cell reads as removes
the entry. -/
def Memory.write : Memory → Nat → Byte → Memory
  | [], a, b => if b = Memory.unlisted then [] else [(a, b)]
  | (c, x) :: rest, a, b =>
    if a < c then
      if b = Memory.unlisted then (c, x) :: rest else (a, b) :: (c, x) :: rest
    else if a = c then
      if b = Memory.unlisted then rest else (a, b) :: rest
    else (c, x) :: Memory.write rest a b

/-- Writes bytes at ascending addresses from `a` (R282). -/
def Memory.writeAll : Memory → Nat → List Byte → Memory
  | m, _, [] => m
  | m, a, b :: rest => Memory.writeAll (Memory.write m a b) (a + 1) rest

/-- The bytes of `n` cells at ascending addresses from `a` (R181). -/
def Memory.readAll (m : Memory) (a : Nat) : Nat → List Byte
  | 0 => []
  | n + 1 => Memory.read m a :: Memory.readAll m (a + 1) n

/-- A valid address is an integer 0..4095 (R50, R57). -/
def inMemory : Int → Bool
  | .ofNat a => decide (a < Config.memSize)
  | .negSucc _ => false

/-- The first out-of-range address, in access order (R242). -/
def firstOutOfRange : List Int → Option Int
  | [] => none
  | a :: rest => if inMemory a then firstOutOfRange rest else some a

/-- `n` addresses ascending from `a`, on unbounded integers (R58, R218). -/
def addressesFrom (a : Int) : Nat → List Int
  | 0 => []
  | n + 1 => a :: addressesFrom (a + 1) n

/-- Read of a data register (R21). -/
def State.reg (s : State) (x : RegIx) : Byte := s.V.get x.toFin

/-- Write of a data register (R21: none is hardwired). -/
def State.setReg (s : State) (x : RegIx) (b : Byte) : State := { s with V := s.V.set x.toNat b x.isLt }

/-- The index of `VF`, the machine's only flag (R22). -/
def vf : RegIx := 0xF

/-- Writes a flag value, exactly 0 or 1, to `VF` (R22). -/
def State.setFlag (s : State) (c : Bool) : State := s.setReg vf (if c then 0x01 else 0x00)

/-- Write of the index register (R23). -/
def State.setI (s : State) (w : Word) : State := { s with I := w }

/-- Write of the program counter (R24). -/
def State.setPc (s : State) (w : Word) : State := { s with pc := w }

/-- Write of the stack pointer (R26). -/
def State.setSp (s : State) (w : Word) : State := { s with sp := w }

/-- Write of the delay timer (R27). -/
def State.setDT (s : State) (b : Byte) : State := { s with DT := b }

/-- Write of the sound timer (R27). -/
def State.setST (s : State) (b : Byte) : State := { s with ST := b }

/-- Replaces memory as a whole, after writes to it. -/
def State.setM (s : State) (m : Memory) : State := { s with M := m }

/-- Write of the engine's control state (R31). -/
def State.setPhase (s : State) (p : Phase) : State := { s with PHASE := p }

/-- Replaces the environment. -/
def State.setEnv (s : State) (e : Env) : State := { s with env := e }

/-- Replaces the display's pixels or nothing else (R189). -/
def State.setDisplay (s : State) (d : Display) : State := s.setEnv { s.env with display := d }

/-- One byte write of memory (R57). -/
def State.store (s : State) (a : Nat) (b : Byte) : State := s.setM (s.M.write a b)

/-- Fault entry, the one operation every fault takes: `FAULT` is set, `PHASE` becomes `HALTED`, and nothing else changes
(R245). The record's `pc` is the register's value at the raise (R241, R242). There is no return from a fault (R246). -/
def State.raise (s : State) (cause : Cause) (instr addr : Word) : State :=
  { s with PHASE := .halted, FAULT := some { cause := cause, instr := instr, pc := s.pc, addr := addr } }

/-- `raise UnknownOpcode` (R241): `FAULT.addr` is 0. -/
def State.raiseUnknownOpcode (s : State) (op : Word) : State := s.raise .unknownOpcode op 0x0000

/-- `raise MemoryFault(a)` (R242): the address is recorded modulo 65536. `instr` is 0 for a fetch fault. -/
def State.raiseMemoryFault (s : State) (instr : Word) (a : Int) : State := s.raise .memoryFault instr (BitVec.ofInt 16 a)

/-- Every handler that accesses memory checks all its addresses first, and performs nothing if one is out of range (R119):
the `MemoryFault` of instruction `i`, or the state `t` after its accesses. -/
def checked (i : Instr) (addrs : List Int) (s t : State) : Host.Outcome State Fault Refusal :=
  match firstOutOfRange addrs with
  | some a => .next (s.raiseMemoryFault (encode i) a)
  | none => .next t

/-- The skip of a conditional skip: `pc` moves 2 further when the condition holds (R133, R80). -/
def State.skipIf (s : State) (c : Bool) : State := if c then s.setPc (s.pc + 2) else s

/-- The two bytes a fetch reads, in order (R58, R111). -/
def State.fetchAddresses (s : State) : List Int := addressesFrom s.pc.toNat 2

/-- The instruction word at `pc`, high byte first (R53, R110). -/
def State.fetchWord (s : State) : Word := wordOfBytes (s.M.read s.pc.toNat) (s.M.read (s.pc.toNat + 1))

/-- The advance of `pc` after the fetch and before decode (R112). -/
def State.advancePc (s : State) : State := s.setPc (s.pc + 2)

/-- `RandomByte()` (R162): the next byte of the random source. -/
def State.randomByte (s : State) : Byte := s.env.random.headD (Config.randomByte s.env.moment)

/-- The random source moves on by the one byte consumed (R162). -/
def State.afterRandom (s : State) : State := s.setEnv { s.env with random := s.env.random.tail }

/-- `KeyPressed(k)` (R191), asked at the moment the instruction executes (R182). -/
def State.keyPressed (s : State) (k : Nibble) : Bool := s.env.pressed.headD (Config.keyPressed s.env.moment k)

/-- The answer to `KeyPressed` has been given. -/
def State.afterKeyPressed (s : State) : State := s.setEnv { s.env with pressed := s.env.pressed.tail }

/-- `KeyCurrent()` (R192). -/
def State.keyCurrent (s : State) : KeyAnswer := s.env.current.headD (Config.keyCurrent s.env.moment)

/-- The answer to `KeyCurrent` has been given. -/
def State.afterKeyCurrent (s : State) : State := s.setEnv { s.env with current := s.env.current.tail }

end Sys2Proof.Machine
end

