-- ==== Sys2Proof/Machine/Operands.lean ====
section
/-!
DEFINITION. The operand forms: widened immediates (30_encoding.md R83), the addresses each instruction accesses
(20_memory.md R58), transfers between registers and memory (R216, R217), decimal digits (R215), key indices (R191), and the
formulas the spec recommends to name because its own source may be in error (93_implementation_defined.md U7, U8, U9).
-/

namespace Sys2Proof.Machine

/-- A 12-bit immediate as a 16-bit register value (R83). -/
def wideAddr (nnn : Imm12) : Word := nnn.setWidth 16

/-- A data register as a 16-bit addend (R83). -/
def wideByte (b : Byte) : Word := b.setWidth 16

/-- The addresses of `n` accesses from `I` up (R218). -/
def State.dataAddresses (s : State) (n : Nat) : List Int := addressesFrom s.I.toNat n

/-- The addresses `CALL` writes, in order (R58). -/
def State.pushAddresses (s : State) : List Int := addressesFrom s.sp.toNat 2

/-- The addresses `RET` reads, in order (R58). -/
def State.popAddresses (s : State) : List Int := [(s.sp.toNat : Int) - 1, (s.sp.toNat : Int) - 2]

/-- `STM`'s loop (R216): memory after `V[0]` .. `V[n-1]` have been written from address `a` up. -/
def State.storeRegs (s : State) (a : Nat) : Nat → Memory
  | 0 => s.M
  | n + 1 => (s.storeRegs a n).write (a + n) (s.reg (BitVec.ofNat 4 n))

/-- `LDM`'s loop (R217): the state after `V[0]` .. `V[n-1]` have been loaded from address `a` up. -/
def State.loadRegs (s : State) (a : Nat) : Nat → State
  | 0 => s
  | n + 1 => (s.loadRegs a n).setReg (BitVec.ofNat 4 n) (s.M.read (a + n))

/-- The hundreds digit (R215). -/
def hundreds (v : Byte) : Byte := BitVec.ofNat 8 (v.toNat / 100)

/-- The tens digit (R215). -/
def tens (v : Byte) : Byte := BitVec.ofNat 8 (v.toNat / 10 % 10)

/-- The ones digit (R215). -/
def ones (v : Byte) : Byte := BitVec.ofNat 8 (v.toNat % 10)

/-- The glyph address of `FNT`, a named formula whose documented value is `V[x] + FONT_BASE` (R214, U8). -/
def glyphAddress (v : Byte) : Word := wideByte v + Config.fontBase

/-- The target of `JPR`, a named formula whose documented value is relative to the advanced `pc` (R137, U7). -/
def jprTarget (pc : Word) (nnn : Imm12) (v0 : Byte) : Word := pc + wideAddr nnn + wideByte v0

/-- `SKUP` skips when the key is not pressed (R182, U9). -/
def skupSkips (pressed : Bool) : Bool := !pressed

/-- `SKDN` skips when the key is pressed (R183, U9). -/
def skdnSkips (pressed : Bool) : Bool := pressed

/-- The key index a register names, for the values 0..15 the Input Adapter's query is defined on (R191). -/
def keyIndex (v : Byte) : Option Nibble := if v.toNat ≤ 15 then some (v.setWidth 4) else none

end Sys2Proof.Machine
end

