-- ==== Sys2Proof/Machine/ControlFlow.lean ====
section
/-!
DEFINITION. The control-transfer instructions (41_control_flow.md). Every meaning starts from the state after the fetch,
with `pc` already advanced (R112).
-/

namespace Sys2Proof.Machine

/-- `RET` (R130): high byte first, `sp` down by 1 before each read; the popped value is not masked. -/
def execRet (s : State) : Host.Outcome State Fault Refusal :=
  checked .ret s.popAddresses s
    ((s.setSp (s.sp - 2)).setPc (wordOfBytes (s.M.read (s.sp.toNat - 1)) (s.M.read (s.sp.toNat - 2))))

/-- `JP nnn` (R131). -/
def execJp (nnn : Imm12) (s : State) : Host.Outcome State Fault Refusal := .next (s.setPc (wideAddr nnn))

/-- `CALL nnn` (R132): the return address is pushed low byte first, then `pc` moves. -/
def execCall (nnn : Imm12) (s : State) : Host.Outcome State Fault Refusal :=
  checked (.call nnn) s.pushAddresses s
    ((((s.store s.sp.toNat (lowByte s.pc)).store (s.sp.toNat + 1) (highByte s.pc)).setSp (s.sp + 2)).setPc (wideAddr nnn))

/-- `SEI Vx, kk` (R133). -/
def execSei (x : RegIx) (kk : Byte) (s : State) : Host.Outcome State Fault Refusal :=
  .next (s.skipIf (decide (s.reg x = kk)))

/-- `SNEI Vx, kk` (R134). -/
def execSnei (x : RegIx) (kk : Byte) (s : State) : Host.Outcome State Fault Refusal :=
  .next (s.skipIf (decide (s.reg x ≠ kk)))

/-- `SER Vx, Vy` (R135). -/
def execSer (x y : RegIx) (s : State) : Host.Outcome State Fault Refusal :=
  .next (s.skipIf (decide (s.reg x = s.reg y)))

/-- `SNER Vx, Vy` (R136). -/
def execSner (x y : RegIx) (s : State) : Host.Outcome State Fault Refusal :=
  .next (s.skipIf (decide (s.reg x ≠ s.reg y)))

/-- `JPR nnn` (R137): relative to the advanced `pc`, with `V0` added. -/
def execJpr (nnn : Imm12) (s : State) : Host.Outcome State Fault Refusal :=
  .next (s.setPc (jprTarget s.pc nnn (s.reg 0x0)))

end Sys2Proof.Machine
end

