-- ==== Sys2Proof/Machine/Display.lean ====
section
/-!
DEFINITION. The reference Display Adapter (43_display_input.md R185 to R189): clearing, and drawing a sprite by exclusive
or with toroidal wraparound and a collision answer.
-/

namespace Sys2Proof.Machine

/-- Puts a position into a rising list, or takes it out where it stands: the exclusive or of one pixel with 1. -/
def toggleIn : List Nat → Nat → List Nat
  | [], p => [p]
  | q :: rest, p => if p < q then p :: q :: rest else if p = q then rest else q :: toggleIn rest p

/-- Where a pixel stands in the row-major numbering of the array, both coordinates wrapped (R187). -/
def Display.position (d : Display) (tx ty : Nat) : Nat := (ty % d.height) * d.width + tx % d.width

/-- Whether `FB[ty mod height][tx mod width]` is 1 (R185). -/
def Display.pixel (d : Display) (tx ty : Nat) : Bool := d.lit.contains (d.position tx ty)

/-- `DisplayClear()`: every pixel off (R186). -/
def Display.clear (d : Display) : Display := { d with lit := [] }

/-- The exclusive or of a pixel with 1. -/
def Display.toggle (d : Display) (tx ty : Nat) : Display := { d with lit := toggleIn d.lit (d.position tx ty) }

/-- One bit of a sprite over one pixel: only a 1 bit touches it, and collides if the pixel was on (R187, D21). -/
def drawBit (bit : Bool) (tx ty : Nat) (dc : Display × Bool) : Display × Bool :=
  if bit then (dc.1.toggle tx ty, dc.2 || dc.1.pixel tx ty) else dc

/-- The first `k` columns of one row of a sprite, left to right; bit 7 of the row is column 0 (R181, D19). -/
def drawColumns (row : Byte) (x ty : Nat) : Nat → Display × Bool → Display × Bool
  | 0, dc => dc
  | k + 1, dc => drawBit (row.getLsbD (7 - k)) (x + k) ty (drawColumns row x ty k dc)

/-- The rows of a sprite from row `ty` of the display down (R187). -/
def drawRows (x : Nat) : Nat → List Byte → Display × Bool → Display × Bool
  | _, [], dc => dc
  | ty, row :: rest, dc => drawRows x (ty + 1) rest (drawColumns row x ty 8 dc)

/-- `DisplayDraw(rows, x, y)`: the display afterwards and the collision answer (R187). -/
def Display.draw (d : Display) (rows : List Byte) (x y : Byte) : Display × Bool :=
  drawRows x.toNat y.toNat rows (d, false)

end Sys2Proof.Machine
end

