-- ==== Sys2Proof/Machine/DisplayInput.lean ====
section
/-!
DEFINITION. The display and keypad instructions (43_display_input.md).
-/

namespace Sys2Proof.Machine

/-- `CLS` (R180): the core's own state does not change. -/
def execCls (s : State) : Host.Outcome State Fault Refusal := .next (s.setDisplay s.env.display.clear)

/-- `DRW Vx, Vy, n` (R181): the origin is read before `VF` is written; with `n = 0` no address is checked (D30). -/
def execDrw (x y : RegIx) (n : Nibble) (s : State) : Host.Outcome State Fault Refusal :=
  let drawn := s.env.display.draw (s.M.readAll s.I.toNat n.toNat) (s.reg x) (s.reg y)
  checked (.drw x y n) (s.dataAddresses n.toNat) s ((s.setDisplay drawn.1).setFlag drawn.2)

/-- `SKUP Vx` (R182): refused when `V[x]` is no key index (D11). -/
def execSkup (x : RegIx) (s : State) : Host.Outcome State Fault Refusal :=
  match keyIndex (s.reg x) with
  | none => .refused (.keyIndex (s.reg x))
  | some k => .next (s.afterKeyPressed.skipIf (skupSkips (s.keyPressed k)))

/-- `SKDN Vx` (R183): refused when `V[x]` is no key index (D11). -/
def execSkdn (x : RegIx) (s : State) : Host.Outcome State Fault Refusal :=
  match keyIndex (s.reg x) with
  | none => .refused (.keyIndex (s.reg x))
  | some k => .next (s.afterKeyPressed.skipIf (skdnSkips (s.keyPressed k)))

/-- `WKEY Vx` (R184): the handler enters the wait; the key-wait step (`keyWait`, Engine.lean) completes it. -/
def execWkey (x : RegIx) (s : State) : Host.Outcome State Fault Refusal := .next (s.setPhase (.waitKey x))

end Sys2Proof.Machine
end

