-- ==== Sys2Proof/Machine/Flags.lean ====
section
/-!
DEFINITION. The values of `VF` (10_state.md R22): carry, not-borrow, the bit shifted out. The collision answer is the
display's (Display.lean).
-/

namespace Sys2Proof.Machine

/-- `ADD`: 1 iff the sum exceeds 255 (R156). -/
def carry (a b : Byte) : Bool := decide (a.toNat + b.toNat > 255)

/-- `a - b` needs no borrow: 1 iff `a >= b` (R157; R159 with the operands exchanged). -/
def notBorrow (a b : Byte) : Bool := decide (b.toNat ≤ a.toNat)

/-- `SHR`: the bit shifted out to the right, bit 0 (R158). -/
def shiftedOutRight (a : Byte) : Bool := a.getLsbD 0

/-- `SHL`: the bit shifted out to the left, bit 7 (R160). -/
def shiftedOutLeft (a : Byte) : Bool := a.getLsbD 7

end Sys2Proof.Machine
end

