-- ==== Sys2Proof/Machine/LoadAlu.lean ====
section
/-!
DEFINITION. The load, arithmetic, logic, shift and random instructions (42_load_alu.md). The two writes of an instruction
that also writes `VF` are made in the order of its rule, the later one seeing the earlier (40_fetch_execute.md R118), which
is what R164 works out for `x = 15`.
-/

namespace Sys2Proof.Machine

/-- `LDI Vx, kk` (R150). -/
def execLdi (x : RegIx) (kk : Byte) (s : State) : Host.Outcome State Fault Refusal := .next (s.setReg x kk)

/-- `ADDI Vx, kk` (R151): no flag. -/
def execAddi (x : RegIx) (kk : Byte) (s : State) : Host.Outcome State Fault Refusal := .next (s.setReg x (s.reg x + kk))

/-- `MOV Vx, Vy` (R152). -/
def execMov (x y : RegIx) (s : State) : Host.Outcome State Fault Refusal := .next (s.setReg x (s.reg y))

/-- `OR Vx, Vy` (R153): no flag. -/
def execOr (x y : RegIx) (s : State) : Host.Outcome State Fault Refusal := .next (s.setReg x (s.reg x ||| s.reg y))

/-- `AND Vx, Vy` (R154): no flag. -/
def execAnd (x y : RegIx) (s : State) : Host.Outcome State Fault Refusal := .next (s.setReg x (s.reg x &&& s.reg y))

/-- `XOR Vx, Vy` (R155): no flag. -/
def execXor (x y : RegIx) (s : State) : Host.Outcome State Fault Refusal := .next (s.setReg x (s.reg x ^^^ s.reg y))

/-- `ADD Vx, Vy` (R156): result, then carry. -/
def execAdd (x y : RegIx) (s : State) : Host.Outcome State Fault Refusal :=
  .next ((s.setReg x (s.reg x + s.reg y)).setFlag (carry (s.reg x) (s.reg y)))

/-- `SUB Vx, Vy` (R157): result, then not-borrow. -/
def execSub (x y : RegIx) (s : State) : Host.Outcome State Fault Refusal :=
  .next ((s.setReg x (s.reg x - s.reg y)).setFlag (notBorrow (s.reg x) (s.reg y)))

/-- `SUBN Vx, Vy` (R159): result, then not-borrow. -/
def execSubn (x y : RegIx) (s : State) : Host.Outcome State Fault Refusal :=
  .next ((s.setReg x (s.reg y - s.reg x)).setFlag (notBorrow (s.reg y) (s.reg x)))

/-- `SHR Vx` (R158): the bit shifted out, then the shift of `V[x]` as the first write left it. -/
def execShr (x : RegIx) (s : State) : Host.Outcome State Fault Refusal :=
  let t := s.setFlag (shiftedOutRight (s.reg x))
  .next (t.setReg x (t.reg x >>> 1))

/-- `SHL Vx` (R160): the bit shifted out, then the shift of `V[x]` as the first write left it. -/
def execShl (x : RegIx) (s : State) : Host.Outcome State Fault Refusal :=
  let t := s.setFlag (shiftedOutLeft (s.reg x))
  .next (t.setReg x (t.reg x <<< 1))

/-- `LDA nnn` (R161). -/
def execLda (nnn : Imm12) (s : State) : Host.Outcome State Fault Refusal := .next (s.setI (wideAddr nnn))

/-- `RND Vx, kk` (R162): one byte of the random source is consumed. -/
def execRnd (x : RegIx) (kk : Byte) (s : State) : Host.Outcome State Fault Refusal :=
  .next (s.afterRandom.setReg x (kk &&& s.randomByte))

end Sys2Proof.Machine
end

