-- ==== Sys2Proof/Machine/TimerIndexMemory.lean ====
section
/-!
DEFINITION. The timer, index-register and memory-transfer instructions (44_timer_index_memory.md). The transfers check all
their addresses before anything is written (40_fetch_execute.md R119) and leave `I` as it was (D14).
-/

namespace Sys2Proof.Machine

/-- `GDT Vx` (R210). -/
def execGdt (x : RegIx) (s : State) : Host.Outcome State Fault Refusal := .next (s.setReg x s.DT)

/-- `SDT Vx` (R211). -/
def execSdt (x : RegIx) (s : State) : Host.Outcome State Fault Refusal := .next (s.setDT (s.reg x))

/-- `SST Vx` (R212). -/
def execSst (x : RegIx) (s : State) : Host.Outcome State Fault Refusal := .next (s.setST (s.reg x))

/-- `ADDA Vx` (R213): wraps at 16 bits, no flag. -/
def execAdda (x : RegIx) (s : State) : Host.Outcome State Fault Refusal := .next (s.setI (s.I + wideByte (s.reg x)))

/-- `FNT Vx` (R214). -/
def execFnt (x : RegIx) (s : State) : Host.Outcome State Fault Refusal := .next (s.setI (glyphAddress (s.reg x)))

/-- `BCD Vx` (R215). -/
def execBcd (x : RegIx) (s : State) : Host.Outcome State Fault Refusal :=
  let a := s.I.toNat
  let v := s.reg x
  checked (.bcd x) (s.dataAddresses 3) s
    (((s.store a (hundreds v)).store (a + 1) (tens v)).store (a + 2) (ones v))

/-- `STM Vx` (R216). -/
def execStm (x : RegIx) (s : State) : Host.Outcome State Fault Refusal :=
  checked (.stm x) (s.dataAddresses (x.toNat + 1)) s (s.setM (s.storeRegs s.I.toNat (x.toNat + 1)))

/-- `LDM Vx` (R217). -/
def execLdm (x : RegIx) (s : State) : Host.Outcome State Fault Refusal :=
  checked (.ldm x) (s.dataAddresses (x.toNat + 1)) s (s.loadRegs s.I.toNat (x.toNat + 1))

end Sys2Proof.Machine
end

