-- ==== Sys2Proof/Machine/Dispatch.lean ====
section
/-!
DEFINITION. The dispatch (40_fetch_execute.md R113): the handler is chosen by the instruction alone. `exec i s` is the
handler of `i` run in `s`, the state after the fetch, whose `pc` is already advanced (R110, R112).
-/

namespace Sys2Proof.Machine

def exec (i : Instr) (s : State) : Host.Outcome State Fault Refusal :=
  match i with
  | .cls => Sys2Proof.Machine.execCls s
  | .ret => Sys2Proof.Machine.execRet s
  | .jp nnn => Sys2Proof.Machine.execJp nnn s
  | .call nnn => Sys2Proof.Machine.execCall nnn s
  | .sei x kk => Sys2Proof.Machine.execSei x kk s
  | .snei x kk => Sys2Proof.Machine.execSnei x kk s
  | .ser x y => Sys2Proof.Machine.execSer x y s
  | .ldi x kk => Sys2Proof.Machine.execLdi x kk s
  | .addi x kk => Sys2Proof.Machine.execAddi x kk s
  | .mov x y => Sys2Proof.Machine.execMov x y s
  | .or x y => Sys2Proof.Machine.execOr x y s
  | .and x y => Sys2Proof.Machine.execAnd x y s
  | .xor x y => Sys2Proof.Machine.execXor x y s
  | .add x y => Sys2Proof.Machine.execAdd x y s
  | .sub x y => Sys2Proof.Machine.execSub x y s
  | .shr x => Sys2Proof.Machine.execShr x s
  | .subn x y => Sys2Proof.Machine.execSubn x y s
  | .shl x => Sys2Proof.Machine.execShl x s
  | .sner x y => Sys2Proof.Machine.execSner x y s
  | .lda nnn => Sys2Proof.Machine.execLda nnn s
  | .jpr nnn => Sys2Proof.Machine.execJpr nnn s
  | .rnd x kk => Sys2Proof.Machine.execRnd x kk s
  | .drw x y n => Sys2Proof.Machine.execDrw x y n s
  | .skup x => Sys2Proof.Machine.execSkup x s
  | .skdn x => Sys2Proof.Machine.execSkdn x s
  | .gdt x => Sys2Proof.Machine.execGdt x s
  | .wkey x => Sys2Proof.Machine.execWkey x s
  | .sdt x => Sys2Proof.Machine.execSdt x s
  | .sst x => Sys2Proof.Machine.execSst x s
  | .adda x => Sys2Proof.Machine.execAdda x s
  | .fnt x => Sys2Proof.Machine.execFnt x s
  | .bcd x => Sys2Proof.Machine.execBcd x s
  | .stm x => Sys2Proof.Machine.execStm x s
  | .ldm x => Sys2Proof.Machine.execLdm x s

end Sys2Proof.Machine
end

