-- ==== Sys2Proof/Machine/Engine.lean ====
section
/-!
DEFINITION. What moves the machine besides a handler: who moves next (40_fetch_execute.md R115, R117), the tick (R251), the
reset input (R281), the host's `load`, `release` and whole load (R260, R282), the fetch and decode of an instruction cycle (R110 to R113) and the key-wait
step of `WKEY` (R184). `Step.lean` puts them together.
-/

namespace Sys2Proof.Machine

/-- The tick is enabled in `RUN` and `WAIT_KEY` and disabled in `LOAD` and `HALTED` (R115, R251). -/
def State.timersRun (s : State) : Bool :=
  match s.PHASE with
  | .load => false
  | .run => true
  | .waitKey _ => true
  | .halted => false

/-- Who moves at this step: what the environment's schedule says; where it says nothing and both the engine and the tick are
enabled, either may happen (R115, R117), which a free value decides. -/
def State.nextEvent (s : State) : Event :=
  match s.env.schedule with
  | e :: _ => e
  | [] => if s.timersRun && Config.tickNext s.env.moment then .tick else .engine

/-- One step of the schedule has been taken. -/
def State.turn (s : State) : State :=
  s.setEnv { s.env with schedule := s.env.schedule.tail, moment := s.env.moment + 1 }

/-- A counter goes down by one and stops at 0 (R28, R251). -/
def countDown (b : Byte) : Byte := if b = 0 then 0 else b - 1

/-- The tick: both counters, nothing else (R251); where it is disabled it changes nothing (R115). -/
def State.tick (s : State) : State :=
  if s.timersRun then (s.setDT (countDown s.DT)).setST (countDown s.ST) else s

/-- The reset input: the reset state whatever the phase, memory included, and every pixel of the reference display off (R280,
R281). What the environment will do afterwards is not the core's and stays. -/
def State.assertReset (s : State) : State :=
  State.reset.setEnv { s.env with display := s.env.display.clear }

/-- The core is held in phase `LOAD`: there alone the host writes memory and releases it (R67, R115). -/
def State.held (s : State) : Bool :=
  match s.PHASE with
  | .load => true
  | .run => false
  | .waitKey _ => false
  | .halted => false

/-- `load(addr, byte)` (R260): the host writes one byte of memory while the core is held, and may not otherwise (R67, R261). -/
def hostWrite (a : MemAddr) (b : Byte) (s : State) : Host.Outcome State Fault Refusal :=
  if s.held then .next (s.store a.toNat b) else .refused .hostAccess

/-- `release` (R260, R282): the host lets the held core run. -/
def hostRelease (s : State) : Host.Outcome State Fault Refusal :=
  if s.held then .next (s.setPhase .run) else .refused .hostAccess

/-- The host's whole load in phase `LOAD` (R282): the font at 0x000, then the ROM at 0x200, then release. An image that does not
fit is a `LoadError`, and the core is never released (R243). -/
def hostLoad (s : State) : Host.Outcome State Fault Refusal :=
  if fontFits s.env.font && romFits s.env.rom then
    .next ((s.setM ((s.M.writeAll Config.fontBase.toNat s.env.font).writeAll Config.programBase.toNat s.env.rom)).setPhase .run)
  else .refused .loadError

/-- Fetch, advance of `pc`, decode (R110 to R113): the instruction and the state its handler starts from, or the halted
state of a fetch fault (`pc` as it was, no word) or of an illegal word (`pc` advanced). -/
def State.fetchDecode (s : State) : Except State (Instr × State) :=
  match firstOutOfRange s.fetchAddresses with
  | some a => .error (s.raiseMemoryFault 0x0000 a)
  | none =>
    match decode s.fetchWord with
    | .error _ => .error (s.advancePc.raiseUnknownOpcode s.fetchWord)
    | .ok i => .ok (i, s.advancePc)

/-- The key-wait step, enabled in `WAIT_KEY(x)` (R184): it waits on while no key is down. -/
def keyWait (x : RegIx) (s : State) : Host.Outcome State Fault Refusal :=
  match s.keyCurrent with
  | .none => .next s.afterKeyCurrent
  | .mapped k => .next ((s.afterKeyCurrent.setReg x (k.setWidth 8)).setPhase .run)
  | .unmapped => .next ((s.afterKeyCurrent.setReg x Config.keySentinel).setPhase .run)

/-- Places an instruction word where the fetch will read it, high byte first (R53); where `pc` is no place to fetch from
nothing is placed. -/
def State.placeWord (s : State) (op : Word) : State :=
  if s.pc.toNat + 1 < Config.memSize then (s.store s.pc.toNat (highByte op)).store (s.pc.toNat + 1) (lowByte op) else s

/-- The engine moves next. -/
def State.engineNext (s : State) : State := s.setEnv { s.env with schedule := .engine :: s.env.schedule }

end Sys2Proof.Machine
end

