-- ==== Sys2Proof/Machine/Step.lean ====
section
/-!
DEFINITION. One step of the machine (40_fetch_execute.md R115): the reset input, a tick, an interaction of the
host, or the engine's step of its phase.
-/

namespace Sys2Proof.Machine

/-- One step. In `LOAD` the engine does nothing and its turn is the host's whole load (R282); in `RUN` it executes one instruction
cycle (R110); in `WAIT_KEY` it takes the key-wait step (R184); in `HALTED` no step of the core is enabled (R115, R245). -/
def step (s : State) : Host.Outcome State Fault Refusal :=
  match s.nextEvent with
  | .reset => .next s.turn.assertReset
  | .tick => .next s.turn.tick
  | .load a b => hostWrite a b s.turn
  | .release => hostRelease s.turn
  | .engine =>
    match s.PHASE with
    | .load => hostLoad s.turn
    | .run =>
      match s.turn.fetchDecode with
      | .error t => .next t
      | .ok (i, t) => exec i t
    | .waitKey x => keyWait x s.turn
    | .halted => .fault (.halted s.FAULT)

/-- `s` with the instruction `w` (of `nbits` bits, numbered as the opcode table numbers them) placed where the next step
fetches: the word in memory at `pc`, the core released, and the engine the next to move. -/
def State.withFetchWord (s : State) (nbits w : Nat) : State :=
  ((s.placeWord (BitVec.ofNat 16 (w % 2 ^ nbits))).setPhase .run).engineNext

end Sys2Proof.Machine
end

