-- ==== Sys2Proof/Machine/Trace.lean ====
section
/-!
DEFINITION. The trace output (40_fetch_execute.md R114, 60_exceptions.md R258): the word of a cycle that completes. It is an
output, not state (R30).
-/

namespace Sys2Proof.Machine

/-- The trace word of an engine step in `RUN` that leaves the core in `RUN`, or of the key-wait step that ends a wait. A
cycle that faults returns nothing, and `WKEY` returns only when its wait is over (R184). -/
def traceAfter (s t : State) : Option Word :=
  match s.PHASE, t.PHASE with
  | .run, .run => some s.fetchWord
  | .waitKey x, .run => some (encode (.wkey x))
  | _, _ => none

/-- The trace word the step from `s` outputs, if it completes an instruction cycle (R114). -/
def traceWord (s : State) : Option Word :=
  match s.nextEvent, step s with
  | .engine, .next t => traceAfter s t
  | _, _ => none

end Sys2Proof.Machine
end

