-- ==== Sys2Proof/Safety.lean ====
section
/-!
DEFINITION. The terms claims are stated in: the invariant of the machine, what a step leaves unchanged, and which
instructions can halt the core.
-/

namespace Sys2Proof.Machine

/-- What holds of every state the machine can be in: memory and the display's list are in canonical form; `sp` is even and
at most 0x1000 (R26); the fault record is there exactly when the core has halted (R31, R32, R245). -/
structure State.Inv (s : State) : Prop where
  memory : Memory.wf s.M = true
  display : Display.wf s.env.display = true
  stackEven : s.sp.toNat % 2 = 0
  stackInRange : s.sp.toNat ≤ 0x1000
  faultIffHalted : s.FAULT.isSome = true ↔ s.PHASE = .halted

/-- Every data register outside `rs` is unchanged. -/
def SameRegsBut (rs : List RegIx) (s t : State) : Prop := ∀ r, r ∉ rs → t.reg r = s.reg r

/-- Every byte of memory reads as before. -/
def SameMemory (s t : State) : Prop := ∀ a, t.M.read a = s.M.read a

/-- Every byte of memory outside the `n` bytes from `a` up reads as before. -/
def SameMemoryBut (a n : Nat) (s t : State) : Prop := ∀ b, ¬ (a ≤ b ∧ b < a + n) → t.M.read b = s.M.read b

/-- The timers and the engine's control state are unchanged. -/
structure SameControl (s t : State) : Prop where
  DT : t.DT = s.DT
  ST : t.ST = s.ST
  PHASE : t.PHASE = s.PHASE
  FAULT : t.FAULT = s.FAULT

/-- Nothing changes but the data registers in `rs`: the frame of an instruction on registers alone. -/
structure RegisterFrame (rs : List RegIx) (s t : State) : Prop where
  regs : SameRegsBut rs s t
  I : t.I = s.I
  pc : t.pc = s.pc
  sp : t.sp = s.sp
  control : SameControl s t
  memory : SameMemory s t
  env : t.env = s.env

/-- Nothing changes but `pc`: the frame of a jump or a skip. -/
structure JumpFrame (s t : State) : Prop where
  regs : SameRegsBut [] s t
  I : t.I = s.I
  sp : t.sp = s.sp
  control : SameControl s t
  memory : SameMemory s t
  env : t.env = s.env

/-- Nothing changes but `I`. -/
structure IndexFrame (s t : State) : Prop where
  regs : SameRegsBut [] s t
  pc : t.pc = s.pc
  sp : t.sp = s.sp
  control : SameControl s t
  memory : SameMemory s t
  env : t.env = s.env

/-- Nothing changes but the `n` bytes of memory from `a` up. -/
structure StoreFrame (a n : Nat) (s t : State) : Prop where
  regs : SameRegsBut [] s t
  I : t.I = s.I
  pc : t.pc = s.pc
  sp : t.sp = s.sp
  control : SameControl s t
  memory : SameMemoryBut a n s t
  env : t.env = s.env

/-- The core halts with a `MemoryFault` of instruction `i` at address `a`, and nothing else changes (R119, R242). -/
def haltedBy (s : State) (i : Instr) (a : Word) : State :=
  { s with PHASE := .halted, FAULT := some { cause := .memoryFault, instr := encode i, pc := s.pc, addr := a } }

/-- The environment after a step: one entry of the schedule consumed. -/
def Env.turned (e : Env) : Env := { e with schedule := e.schedule.tail, moment := e.moment + 1 }

/-- The instructions whose handler accesses memory, and so can halt the core (R58, R242). -/
def accessesMemory : Instr → Prop
  | .ret | .call _ | .drw _ _ _ | .bcd _ | .stm _ | .ldm _ => True
  | _ => False

/-- The bits of an instruction's word that its decoding ignores (R90). -/
def ignoredBits : Instr → Word
  | .ser _ _ => 0x000F
  | .sner _ _ => 0x000F
  | .shr _ => 0x00F0
  | .shl _ => 0x00F0
  | _ => 0x0000

/-- A 1 bit of the sprite of `n` rows at `I`, drawn at `(V[x], V[y])`, lands on pixel `(px, py)`: row `dy`, column `dx`,
both coordinates wrapped, bit 7 the leftmost (R181, R187). -/
def spriteTouches (s : State) (x y : RegIx) (n : Nibble) (px py : Nat) : Prop :=
  ∃ dy dx, dy < n.toNat ∧ dx < 8 ∧ (s.M.read (s.I.toNat + dy)).getLsbD (7 - dx) = true ∧
    ((s.reg x).toNat + dx) % s.env.display.width = px ∧ ((s.reg y).toNat + dy) % s.env.display.height = py

/-- How many 1 bits of that sprite land on pixel `(px, py)`; more than one on a display narrower or lower than the sprite
(R187). -/
def spriteHits (s : State) (x y : RegIx) (n : Nibble) (px py : Nat) : Nat :=
  ((List.range n.toNat).map fun dy =>
    (List.range 8).countP fun dx => (s.M.read (s.I.toNat + dy)).getLsbD (7 - dx) &&
      decide (((s.reg x).toNat + dx) % s.env.display.width = px ∧ ((s.reg y).toNat + dy) % s.env.display.height = py)).sum

/-- The host's `load(addr, byte)` interactions of an image, at ascending addresses from `a` (R260, R282). -/
def loadsFrom (a : Nat) : List Byte → List Event
  | [] => []
  | b :: rest => .load (BitVec.ofNat 12 a) b :: loadsFrom (a + 1) rest

/-- `k` steps, stopping at the first fault or refusal. -/
def steps : Nat → State → Host.Outcome State Fault Refusal
  | 0, s => .next s
  | k + 1, s =>
    match step s with
    | .next t => steps k t
    | .fault f => .fault f
    | .refused r => .refused r

/-- The number the spec gives the state of the fault record: 0 none, 1 `UnknownOpcode`, 2 `MemoryFault` (R244). -/
def causeCode : Option FaultRecord → BitVec 2
  | none => 0
  | some r =>
    match r.cause with
    | .unknownOpcode => 1
    | .memoryFault => 2

/-- The number of `LoadError`, which never stands in the record (R244). -/
def loadErrorCode : BitVec 2 := 3

end Sys2Proof.Machine
end

