-- ==== Sys2Proof/Certificates/Slice0/Obligations.lean ====
section
/-!
DEFINITION. The statements for the provers, from the spec's numbered rules. Each names in its docstring the rules it states
or rests on. Words, addresses and values in the text are hexadecimal.
-/

open Sys2Proof Sys2Proof.Machine

/-- O1 (rests on R81, R82, R95). For every well-formed instruction i, whatever its operands: decode (encode i) = i; and
decoding the two bytes of i, high byte first, in front of any further bytes gives i and leaves those bytes. -/
def Obligations.DecodeOfEncodeIsTheInstruction : Prop :=
  ∀ i : Instr, i.wellFormed = true →
    decode (encode i) = .ok i ∧ ∀ rest : List Byte, decodeBytes (encodeBytes i ++ rest) = .ok (i, rest)

/-- O2 (rests on R90, R95). For every word op that decodes to an instruction i, encode i is op with exactly the bits R90
calls ignored set to 0: the low nibble of SER and SNER, the y field of SHR and SHL, and no bit of any other
instruction. -/
def Obligations.EncodeOfDecodeClearsIgnoredBits : Prop :=
  ∀ (op : Word) (i : Instr), decode op = .ok i → encode i = op &&& ~~~ (ignoredBits i)

/-- O3 (states R89). For all x, y, n: the word 5xyn decodes as SER Vx, Vy and 9xyn as SNER Vx, Vy, and the encoder emits n
= 0 for both. -/
def Obligations.LowNibbleOfFamilies5And9Ignored : Prop :=
  ∀ (x y : RegIx) (n : Nibble),
    decode (0x5#4 ++ x ++ y ++ n) = .ok (.ser x y) ∧ decode (0x9#4 ++ x ++ y ++ n) = .ok (.sner x y) ∧
    encode (.ser x y) = 0x5#4 ++ x ++ y ++ 0x0#4 ∧ encode (.sner x y) = 0x9#4 ++ x ++ y ++ 0x0#4

/-- O4 (rests on R85, R86, R87, R88, R91). decode rejects op iff (a) fam = 0 and op is neither 00E0 nor 00EE, or (b) fam =
8 and n is 8 to D or F, or (c) fam = E and kk is neither 9E nor A1, or (d) fam = F and kk is none of the nine sub-
codes. -/
def Obligations.IllegalWordsAreTheFourSets : Prop :=
  ∀ op : Word, (∃ r, decode op = .error r) ↔
    (op.toNat / 4096 = 0x0 ∧ op.toNat ≠ 0x00E0 ∧ op.toNat ≠ 0x00EE) ∨
    (op.toNat / 4096 = 0x8 ∧ op.toNat % 16 ∈ [0x8, 0x9, 0xA, 0xB, 0xC, 0xD, 0xF]) ∨
    (op.toNat / 4096 = 0xE ∧ op.toNat % 256 ∉ [0x9E, 0xA1]) ∨
    (op.toNat / 4096 = 0xF ∧ op.toNat % 256 ∉ [0x07, 0x0A, 0x15, 0x18, 0x1E, 0x29, 0x33, 0x55, 0x65])

/-- O5 (states R97). 6005 is LDI V0, 05; 7003 is ADDI V0, 03; 00EE is RET; 00E0 is CLS; for every x, 6xkk is LDI Vx, kk,
7x00 is ADDI Vx, 00 and Fx0A is WKEY Vx. -/
def Obligations.SourceExampleWordsDecode : Prop :=
  decode 0x6005 = .ok (.ldi 0 0x05) ∧ decode 0x7003 = .ok (.addi 0 0x03) ∧ decode 0x00EE = .ok .ret ∧
  decode 0x00E0 = .ok .cls ∧
  ∀ (x : RegIx) (kk : Byte), decode (0x6#4 ++ x ++ kk) = .ok (.ldi x kk) ∧
    decode (0x6#4 ++ x ++ 0x00#8) = .ok (.ldi x 0x00) ∧ decode (0x7#4 ++ x ++ 0x00#8) = .ok (.addi x 0x00) ∧
    decode (0xF#4 ++ x ++ 0x0A#8) = .ok (.wkey x)

/-- O6 (rests on R110, R112, R113). If the core is in RUN, the engine moves, pc is at most 0FFE and the two bytes at pc,
high byte first, decode to i, then the step is exec of i in the state whose pc is 2 higher; the only other change is
the model's own bookkeeping in env (one schedule entry consumed, moment counted: log 1 and 2). The handler's work is
the per-instruction statements'. -/
def Obligations.StepRunsTheDecodedInstruction : Prop :=
  ∀ (s : State) (i : Instr), s.PHASE = .run → s.nextEvent = .engine → s.pc.toNat ≤ 0x0FFE →
    decode (s.M.read s.pc.toNat ++ s.M.read (s.pc.toNat + 1)) = .ok i →
    (s.pc + 2).toNat = s.pc.toNat + 2 ∧ step s = exec i { s with pc := s.pc + 2, env := s.env.turned }

/-- O7 (states R241). If the core is in RUN, the engine moves, and the word at pc is illegal, the next state is as before
but for pc (advanced by 2), PHASE = HALTED and FAULT = {UnknownOpcode, the word, pc after the advance, 0}. (env
carries the model's bookkeeping of the step.) -/
def Obligations.IllegalWordHaltsTheCore : Prop :=
  ∀ (s : State) (r : Reject), s.PHASE = .run → s.nextEvent = .engine → s.pc.toNat ≤ 0x0FFE →
    decode (s.M.read s.pc.toNat ++ s.M.read (s.pc.toNat + 1)) = .error r →
    step s = .next { s with
      pc := s.pc + 2, PHASE := .halted, env := s.env.turned,
      FAULT := some { cause := .unknownOpcode, instr := s.M.read s.pc.toNat ++ s.M.read (s.pc.toNat + 1),
                      pc := s.pc + 2, addr := 0 } }

/-- O8 (states R111). If the core is in RUN, the engine moves and pc > 0FFE, the next state is as before but for PHASE =
HALTED and FAULT = {MemoryFault, instr 0000, pc, addr 1000 if pc = 0FFF else pc}; pc is not advanced. (env carries the
model's bookkeeping of the step.) -/
def Obligations.FetchOutsideMemoryHaltsTheCore : Prop :=
  ∀ s : State, s.PHASE = .run → s.nextEvent = .engine → 0x0FFE < s.pc.toNat →
    step s = .next { s with
      PHASE := .halted, env := s.env.turned,
      FAULT := some { cause := .memoryFault, instr := 0x0000, pc := s.pc,
                      addr := if s.pc.toNat = 0x0FFF then 0x1000 else s.pc } }

/-- O9 (rests on R115, R245, R246). In HALTED, if the engine moves the step stops with the fault that carries FAULT (the
form of that stop is the model's choice, log 7), if the tick moves no state of the core changes, and a step that
leaves HALTED is the reset input. -/
def Obligations.HaltedCoreIsFrozen : Prop :=
  ∀ s : State, s.PHASE = .halted →
    (s.nextEvent = .engine → step s = .fault (.halted s.FAULT)) ∧
    (s.nextEvent = .tick → step s = .next { s with env := s.env.turned }) ∧
    ∀ t, step s = .next t → t.PHASE ≠ .halted → s.nextEvent = .reset

/-- O10 (rests on R251, R115). When the tick moves: in RUN and in WAIT_KEY each of DT and ST becomes its value minus one,
or stays 0, and every other piece of state is unchanged; in LOAD and HALTED, where R251 disables the tick, both timers
and all else are unchanged: that a disabled tick is a step at all, one that changes nothing, is the model's choice
(DESIGN CHOICE, log 7). (env carries the model's bookkeeping of the step.) -/
def Obligations.TickCountsBothTimersDown : Prop :=
  ∀ s : State, s.nextEvent = .tick → ∃ t, step s = .next t ∧
    (s.PHASE = .run ∨ (∃ x, s.PHASE = .waitKey x) →
      t.DT.toNat = s.DT.toNat - 1 ∧ t.ST.toNat = s.ST.toNat - 1) ∧
    (s.PHASE = .load ∨ s.PHASE = .halted → t.DT = s.DT ∧ t.ST = s.ST) ∧
    SameRegsBut [] s t ∧ t.I = s.I ∧ t.pc = s.pc ∧ t.sp = s.sp ∧ SameMemory s t ∧ t.PHASE = s.PHASE ∧
    t.FAULT = s.FAULT ∧ t.env = s.env.turned

/-- O11 (states R281). When the reset input moves, whatever the phase: every register, the timers, every byte of memory,
PHASE and FAULT are at the values of R280 and every pixel of the display is 0. And a step from HALTED to another phase
is the reset input. -/
def Obligations.ResetInputRestoresTheResetState : Prop :=
  (∀ s : State, s.nextEvent = .reset → ∃ t, step s = .next t ∧
    (∀ r, t.reg r = 0) ∧ t.I = 0 ∧ t.pc = 0x0200 ∧ t.sp = 0x0052 ∧ t.DT = 0 ∧ t.ST = 0 ∧ (∀ a, t.M.read a = 0) ∧
    t.FAULT = none ∧ t.PHASE = .load ∧ ∀ px py, t.env.display.pixel px py = false) ∧
  ∀ s t : State, s.PHASE = .halted → step s = .next t → t.PHASE ≠ .halted → s.nextEvent = .reset

/-- O12 (states R34). State.reset has every V at 0, I = 0, pc = 0200, sp = 0052, DT = ST = 0, every memory cell 0, PHASE =
LOAD and FAULT empty. -/
def Obligations.ResetStateHasTheSpecsValues : Prop :=
  (∀ r, State.reset.reg r = 0) ∧ State.reset.I = 0x0000 ∧ State.reset.pc = 0x0200 ∧ State.reset.sp = 0x0052 ∧
  State.reset.DT = 0 ∧ State.reset.ST = 0 ∧ (∀ a, State.reset.M.read a = 0) ∧
  State.reset.PHASE = .load ∧ State.reset.FAULT = none

/-- O13 (rests on R282, R243). In LOAD, when the host moves: if the font has at most 4096 bytes and the ROM at most 3584,
each cell of the ROM's range holds the ROM's byte, each other cell of the font's range the font's byte, every other
cell what it held, PHASE = RUN and nothing else changes; if either is longer, the load is refused as a LoadError and
the core is not released. That the whole load is one step, and that a LoadError is a refusal of it, is the model's
choice (DESIGN CHOICE, log 3 and log 19). Memory is in its canonical form, as every step keeps it (O15). -/
def Obligations.HostLoadPlacesTheImagesAndReleases : Prop :=
  ∀ s : State, Memory.wf s.M = true → s.PHASE = .load → s.nextEvent = .engine →
    (s.env.font.length ≤ 4096 ∧ s.env.rom.length ≤ 3584 → ∃ t, step s = .next t ∧ t.PHASE = .run ∧
      (∀ a, t.M.read a =
        if 0x200 ≤ a ∧ a < 0x200 + s.env.rom.length then s.env.rom.getD (a - 0x200) 0
        else if a < s.env.font.length then s.env.font.getD a 0 else s.M.read a) ∧
      SameRegsBut [] s t ∧ t.I = s.I ∧ t.pc = s.pc ∧ t.sp = s.sp ∧ t.DT = s.DT ∧ t.ST = s.ST ∧ t.FAULT = s.FAULT ∧
      t.env = s.env.turned) ∧
    (¬ (s.env.font.length ≤ 4096 ∧ s.env.rom.length ≤ 3584) → step s = .refused .loadError)

/-- O14 (rests on R114, R184). In RUN, when the engine moves and the step answers t: if t is in RUN the trace is the word
fetched, otherwise (halted, or waiting for a key) there is none. In WAIT_KEY(x), when the engine moves and the step
answers t: the trace is the word Fx0A exactly when t is back in RUN. -/
def Obligations.TraceWordOfACompletedCycle : Prop :=
  ∀ s t : State, s.nextEvent = .engine → step s = .next t →
    (s.PHASE = .run → t.PHASE = .run → traceWord s = some (s.M.read s.pc.toNat ++ s.M.read (s.pc.toNat + 1))) ∧
    (s.PHASE = .run → t.PHASE ≠ .run → traceWord s = none) ∧
    (∀ x, s.PHASE = .waitKey x → t.PHASE = .run → traceWord s = some (0xF#4 ++ x ++ 0x0A#8)) ∧
    (∀ x, s.PHASE = .waitKey x → t.PHASE ≠ .run → traceWord s = none)

/-- O15 (rests on R26, R29, R32, R185, R245). For every state s that meets State.Inv, if step s answers next t, then t
meets it: memory lists only cells inside 0..4095 in canonical form, the display's pixels lie in the array, sp is even
and at most 0x1000, and FAULT holds a record iff PHASE = HALTED. The canonical forms are the model's representation of
R29 and R185. -/
def Obligations.EveryStepKeepsTheInvariant : Prop :=
  ∀ s t : State, s.Inv → step s = .next t → t.Inv

/-- O16 (rests on R34, R26). State.Inv holds of State.reset. -/
def Obligations.ResetStateMeetsTheInvariant : Prop :=
  State.reset.Inv

/-- O17 (rests on R26). For every instruction i and every state: if exec i answers t, then sp is unchanged, or i is a CALL
and sp is 2 higher, or i is RET and sp is 2 lower. -/
def Obligations.OnlyCallAndRetMoveTheStackPointer : Prop :=
  ∀ (i : Instr) (s t : State), exec i s = .next t →
    t.sp = s.sp ∨ (∃ nnn, i = .call nnn ∧ t.sp.toNat = s.sp.toNat + 2) ∨ (i = .ret ∧ t.sp.toNat + 2 = s.sp.toNat)

/-- O18 (rests on R27, R254). For every instruction i and every state: if exec i answers t with another DT, i is an SDT;
with another ST, an SST. -/
def Obligations.OnlyTimerInstructionsWriteTimers : Prop :=
  ∀ (i : Instr) (s t : State), exec i s = .next t →
    (t.DT ≠ s.DT → ∃ x, i = .sdt x) ∧ (t.ST ≠ s.ST → ∃ x, i = .sst x)

/-- O19 (rests on R23). For every instruction i and every state: if exec i answers t with another I, i is LDA, ADDA or
FNT. -/
def Obligations.OnlyIndexInstructionsWriteI : Prop :=
  ∀ (i : Instr) (s t : State), exec i s = .next t → t.I ≠ s.I →
    (∃ nnn, i = .lda nnn) ∨ (∃ x, i = .adda x) ∨ ∃ x, i = .fnt x

/-- O20 (rests on R52, R58). For every instruction i and every state: if exec i answers t and some byte of memory reads
differently, i is CALL, BCD or STM. -/
def Obligations.OnlyStoringInstructionsWriteMemory : Prop :=
  ∀ (i : Instr) (s t : State), exec i s = .next t → ¬ SameMemory s t →
    (∃ nnn, i = .call nnn) ∨ (∃ x, i = .bcd x) ∨ ∃ x, i = .stm x

/-- O21 (rests on R22). For every instruction i and every state: if exec i answers t with another VF, then i is ADD, SUB,
SHR, SUBN, SHL or DRW, or its destination field x is 15. -/
def Obligations.OnlyListedInstructionsWriteVF : Prop :=
  ∀ (i : Instr) (s t : State), exec i s = .next t → t.reg 0xF ≠ s.reg 0xF →
    (∃ x y, i = .add x y ∨ i = .sub x y ∨ i = .subn x y) ∨ (∃ x, i = .shr x ∨ i = .shl x) ∨ (∃ x y n, i = .drw x y n) ∨
    (∃ kk, i = .ldi 0xF kk ∨ i = .addi 0xF kk ∨ i = .rnd 0xF kk) ∨
    (∃ y, i = .mov 0xF y ∨ i = .or 0xF y ∨ i = .and 0xF y ∨ i = .xor 0xF y) ∨ i = .gdt 0xF ∨ i = .ldm 0xF

/-- O22 (rests on R119, R242, R245). If the core is in RUN and exec i answers a halted state t, then i is RET, CALL, DRW,
BCD, STM or LDM, and t is the state before the handler with PHASE = HALTED and FAULT = {MemoryFault, the word of i,
pc, the address}: no register, byte of memory or pixel has changed. -/
def Obligations.HandlerFaultsArePrecise : Prop :=
  ∀ (i : Instr) (s t : State), s.PHASE = .run → exec i s = .next t → t.PHASE = .halted →
    accessesMemory i ∧ ∃ a, t = haltedBy s i a

/-- O23 (rests on R182, R183, R240). For every instruction i and every state: exec i answers a next state, or i is SKUP or
SKDN on a register above 15 and exec refuses it by name. No handler stops with a fault outcome. -/
def Obligations.OnlyKeySkipsAreRefused : Prop :=
  ∀ (i : Instr) (s : State), (∃ t, exec i s = .next t) ∨
    (∃ x, (i = .skup x ∨ i = .skdn x) ∧ 15 < (s.reg x).toNat ∧ exec i s = .refused (.keyIndex (s.reg x)))

/-- O24 (rests on R25, R182, R183). For every instruction i run in RUN that does not halt the core: JP and CALL set pc to
nnn, RET to the popped value, JPR to pc + nnn + V0 mod 65536, the conditional skips to pc + 2 where their condition
holds and pc where not (SKUP: the key V[x] is answered not pressed, SKDN: it is answered pressed), and every other
instruction leaves pc. -/
def Obligations.ProgramCounterMovesByRule : Prop :=
  ∀ (i : Instr) (s t : State), s.PHASE = .run → exec i s = .next t → t.PHASE ≠ .halted →
    match i with
    | .jp nnn => t.pc.toNat = nnn.toNat
    | .call nnn => t.pc.toNat = nnn.toNat
    | .ret => t.pc = s.M.read (s.sp.toNat - 1) ++ s.M.read (s.sp.toNat - 2)
    | .jpr nnn => t.pc.toNat = (s.pc.toNat + nnn.toNat + (s.reg 0).toNat) % 65536
    | .sei x kk => t.pc = if s.reg x = kk then s.pc + 2 else s.pc
    | .snei x kk => t.pc = if s.reg x = kk then s.pc else s.pc + 2
    | .ser x y => t.pc = if s.reg x = s.reg y then s.pc + 2 else s.pc
    | .sner x y => t.pc = if s.reg x = s.reg y then s.pc else s.pc + 2
    | .skup x => ∃ k : Nibble, k.toNat = (s.reg x).toNat ∧ t.pc = if s.keyPressed k = true then s.pc else s.pc + 2
    | .skdn x => ∃ k : Nibble, k.toNat = (s.reg x).toNat ∧ t.pc = if s.keyPressed k = true then s.pc + 2 else s.pc
    | _ => t.pc = s.pc

/-- O25 (states R131). exec of JP nnn answers the state whose pc is nnn zero-extended, with every register, timer, byte of
memory and flag unchanged. Word 1nnn is JP nnn. -/
def Obligations.JumpSetsPc : Prop :=
  (∀ nnn : Imm12, decode (0x1#4 ++ nnn) = .ok (.jp nnn)) ∧
  (∀ (nnn : Imm12) (s : State), ∃ t, exec (.jp nnn) s = .next t ∧ t.pc.toNat = nnn.toNat ∧ JumpFrame s t)

/-- O26 (states R132). With sp at most 0FFE: M[sp] = pc[7:0], M[sp+1] = pc[15:8], sp is 2 higher, pc = nnn, every other
byte and register unchanged. With sp above 0FFE: MemoryFault at 1000 if sp = 0FFF, else at sp, and nothing else
changes. Memory is in canonical form, as every step keeps it. Word 2nnn is CALL nnn. -/
def Obligations.CallPushesReturnAddress : Prop :=
  (∀ nnn : Imm12, decode (0x2#4 ++ nnn) = .ok (.call nnn)) ∧
  (∀ (nnn : Imm12) (s : State), Memory.wf s.M = true →
    (s.sp.toNat ≤ 0x0FFE → ∃ t, exec (.call nnn) s = .next t ∧
      (t.M.read s.sp.toNat).toNat = s.pc.toNat % 256 ∧ (t.M.read (s.sp.toNat + 1)).toNat = s.pc.toNat / 256 ∧
      t.sp.toNat = s.sp.toNat + 2 ∧ t.pc.toNat = nnn.toNat ∧
      SameMemoryBut s.sp.toNat 2 s t ∧ SameRegsBut [] s t ∧ t.I = s.I ∧ SameControl s t ∧ t.env = s.env) ∧
    (0x0FFE < s.sp.toNat →
      exec (.call nnn) s = .next (haltedBy s (.call nnn) (if s.sp.toNat = 0x0FFF then 0x1000 else s.sp))))

/-- O27 (states R130). With 2 <= sp <= 1000: pc = M[sp-1] || M[sp-2], all 16 bits kept, sp is 2 lower, and no register,
flag or byte of memory changes. Otherwise MemoryFault at FFFF if sp < 2 (at sp - 1 if sp > 1000) and nothing else
changes. Word 00EE is RET. -/
def Obligations.ReturnPopsAddress : Prop :=
  (decode 0x00EE = .ok .ret) ∧
  (∀ s : State,
    (2 ≤ s.sp.toNat ∧ s.sp.toNat ≤ 0x1000 → ∃ t, exec .ret s = .next t ∧
      t.pc.toNat = (s.M.read (s.sp.toNat - 1)).toNat * 256 + (s.M.read (s.sp.toNat - 2)).toNat ∧
      t.sp.toNat = s.sp.toNat - 2 ∧
      SameMemory s t ∧ SameRegsBut [] s t ∧ t.I = s.I ∧ SameControl s t ∧ t.env = s.env) ∧
    (¬ (2 ≤ s.sp.toNat ∧ s.sp.toNat ≤ 0x1000) →
      exec .ret s = .next (haltedBy s .ret (if s.sp.toNat < 2 then 0xFFFF else s.sp - 1))))

/-- O28 (rests on R130, R132, R139). If CALL nnn runs with sp at most 0FFE, and later RET runs in a state u with the sp
that CALL left and with the two pushed bytes unchanged, then RET answers a state with the return address in pc and the
original sp. -/
def Obligations.CallThenReturnComesBack : Prop :=
  ∀ (nnn : Imm12) (s t u : State), Memory.wf s.M = true → s.sp.toNat ≤ 0x0FFE → exec (.call nnn) s = .next t →
    u.sp = t.sp → u.M.read s.sp.toNat = t.M.read s.sp.toNat → u.M.read (s.sp.toNat + 1) = t.M.read (s.sp.toNat + 1) →
    ∃ v, exec .ret u = .next v ∧ v.pc = s.pc ∧ v.sp = s.sp ∧ SameMemory u v

/-- O29 (states R133, R134). exec of SEI Vx, kk answers pc + 2 if V[x] = kk and pc otherwise, SNEI the other way round;
both complete on every state and leave all else unchanged. Words 3xkk and 4xkk are SEI and SNEI. -/
def Obligations.SkipOnImmediateCompare : Prop :=
  (∀ (x : RegIx) (kk : Byte), decode (0x3#4 ++ x ++ kk) = .ok (.sei x kk) ∧ decode (0x4#4 ++ x ++ kk) = .ok (.snei x kk)) ∧
  (∀ (x : RegIx) (kk : Byte) (s : State),
    (∃ t, exec (.sei x kk) s = .next t ∧ t.pc = (if s.reg x = kk then s.pc + 2 else s.pc) ∧ JumpFrame s t) ∧
    (∃ t, exec (.snei x kk) s = .next t ∧ t.pc = (if s.reg x = kk then s.pc else s.pc + 2) ∧ JumpFrame s t))

/-- O30 (states R135, R136). exec of SER Vx, Vy answers pc + 2 if V[x] = V[y] and pc otherwise, SNER the other way round;
with x = y SER always skips and SNER never; all else is unchanged. Words 5xy- and 9xy- are SER and SNER, whatever the
low nibble. -/
def Obligations.SkipOnRegisterCompare : Prop :=
  (∀ (x y : RegIx) (n : Nibble), decode (0x5#4 ++ x ++ y ++ n) = .ok (.ser x y) ∧ decode (0x9#4 ++ x ++ y ++ n) = .ok (.sner x y)) ∧
  (∀ (x y : RegIx) (s : State),
    (∃ t, exec (.ser x y) s = .next t ∧ t.pc = (if s.reg x = s.reg y then s.pc + 2 else s.pc) ∧ JumpFrame s t) ∧
    (∃ t, exec (.sner x y) s = .next t ∧ t.pc = (if s.reg x = s.reg y then s.pc else s.pc + 2) ∧ JumpFrame s t))

/-- O31 (states R137). exec of JPR nnn answers pc = (pc + nnn + V0) mod 65536, where pc is already past the instruction,
and leaves all else unchanged. Word Bnnn is JPR nnn. -/
def Obligations.JumpRelativeAddsV0 : Prop :=
  (∀ nnn : Imm12, decode (0xB#4 ++ nnn) = .ok (.jpr nnn)) ∧
  (∀ (nnn : Imm12) (s : State), ∃ t, exec (.jpr nnn) s = .next t ∧
    t.pc.toNat = (s.pc.toNat + nnn.toNat + (s.reg 0).toNat) % 65536 ∧ JumpFrame s t)

/-- O32 (states R150, R152). exec of LDI Vx, kk answers V[x] = kk, exec of MOV Vx, Vy answers V[x] = the old V[y]; every
other register, VF among them unless x = 15, and all other state is unchanged. Words 6xkk and 8xy0 are LDI and MOV. -/
def Obligations.LoadsAndMovesWriteOneRegister : Prop :=
  (∀ (x y : RegIx) (kk : Byte), decode (0x6#4 ++ x ++ kk) = .ok (.ldi x kk) ∧ decode (0x8#4 ++ x ++ y ++ 0x0#4) = .ok (.mov x y)) ∧
  (∀ (x y : RegIx) (kk : Byte) (s : State),
    (∃ t, exec (.ldi x kk) s = .next t ∧ t.reg x = kk ∧ RegisterFrame [x] s t) ∧
    (∃ t, exec (.mov x y) s = .next t ∧ t.reg x = s.reg y ∧ RegisterFrame [x] s t))

/-- O33 (states R151). exec of ADDI Vx, kk answers V[x] = (V[x] + kk) mod 256; every other register, VF among them unless
x = 15, and all other state is unchanged. Word 7xkk is ADDI. -/
def Obligations.AddImmediateWrapsWithoutFlag : Prop :=
  (∀ (x : RegIx) (kk : Byte), decode (0x7#4 ++ x ++ kk) = .ok (.addi x kk)) ∧
  (∀ (x : RegIx) (kk : Byte) (s : State), ∃ t, exec (.addi x kk) s = .next t ∧
    (t.reg x).toNat = ((s.reg x).toNat + kk.toNat) % 256 ∧ RegisterFrame [x] s t)

/-- O34 (states R153, R154, R155). For each bit k: OR gives 1 iff one of the two bits is 1, AND iff both are, XOR iff they
differ; every other register, VF among them unless x = 15, and all other state is unchanged. Words 8xy1, 8xy2, 8xy3
are OR, AND, XOR. -/
def Obligations.LogicOperationsAreBitwise : Prop :=
  (∀ x y : RegIx, decode (0x8#4 ++ x ++ y ++ 0x1#4) = .ok (.or x y) ∧ decode (0x8#4 ++ x ++ y ++ 0x2#4) = .ok (.and x y) ∧
    decode (0x8#4 ++ x ++ y ++ 0x3#4) = .ok (.xor x y)) ∧
  (∀ (x y : RegIx) (s : State),
    (∃ t, exec (.or x y) s = .next t ∧
      (∀ k, (t.reg x).getLsbD k = ((s.reg x).getLsbD k || (s.reg y).getLsbD k)) ∧ RegisterFrame [x] s t) ∧
    (∃ t, exec (.and x y) s = .next t ∧
      (∀ k, (t.reg x).getLsbD k = ((s.reg x).getLsbD k && (s.reg y).getLsbD k)) ∧ RegisterFrame [x] s t) ∧
    (∃ t, exec (.xor x y) s = .next t ∧
      (∀ k, (t.reg x).getLsbD k = ((s.reg x).getLsbD k != (s.reg y).getLsbD k)) ∧ RegisterFrame [x] s t))

/-- O35 (states R156). With a, b the operands before: V[x] = (a + b) mod 256 when x is not 15, VF = 1 if a + b > 255 else
0 in every case; nothing else changes. Word 8xy4 is ADD. -/
def Obligations.AddSetsCarry : Prop :=
  (∀ x y : RegIx, decode (0x8#4 ++ x ++ y ++ 0x4#4) = .ok (.add x y)) ∧
  (∀ (x y : RegIx) (s : State), ∃ t, exec (.add x y) s = .next t ∧
    (x ≠ 0xF → (t.reg x).toNat = ((s.reg x).toNat + (s.reg y).toNat) % 256) ∧
    (t.reg 0xF).toNat = (if 255 < (s.reg x).toNat + (s.reg y).toNat then 1 else 0) ∧
    RegisterFrame [x, 0xF] s t)

/-- O36 (states R157, R159). With a, b the values of V[x], V[y] before: SUB writes 256 + a - b and VF = 0 if b > a, else a
- b and VF = 1; SUBN the same with the operands exchanged; when x = 15 only the flag remains; nothing else changes.
Words 8xy5 and 8xy7 are SUB and SUBN. -/
def Obligations.SubtractionsSetNotBorrow : Prop :=
  (∀ x y : RegIx, decode (0x8#4 ++ x ++ y ++ 0x5#4) = .ok (.sub x y) ∧ decode (0x8#4 ++ x ++ y ++ 0x7#4) = .ok (.subn x y)) ∧
  (∀ (x y : RegIx) (s : State),
    (∃ t, exec (.sub x y) s = .next t ∧
      (x ≠ 0xF → (t.reg x).toNat = if (s.reg x).toNat < (s.reg y).toNat then 256 + (s.reg x).toNat - (s.reg y).toNat
        else (s.reg x).toNat - (s.reg y).toNat) ∧
      (t.reg 0xF).toNat = (if (s.reg x).toNat < (s.reg y).toNat then 0 else 1) ∧ RegisterFrame [x, 0xF] s t) ∧
    (∃ t, exec (.subn x y) s = .next t ∧
      (x ≠ 0xF → (t.reg x).toNat = if (s.reg y).toNat < (s.reg x).toNat then 256 + (s.reg y).toNat - (s.reg x).toNat
        else (s.reg y).toNat - (s.reg x).toNat) ∧
      (t.reg 0xF).toNat = (if (s.reg y).toNat < (s.reg x).toNat then 0 else 1) ∧ RegisterFrame [x, 0xF] s t))

/-- O37 (states R158, R160). For x not 15: SHR gives V[x] = old div 2 and VF = old mod 2, SHL V[x] = 2 * old mod 256 and
VF = old div 128. For x = 15: SHR leaves VF = 0, SHL leaves VF = 2 if the old bit 7 was 1, else 0. No other register
(no y) and nothing else changes. Words 8x-6 and 8x-E are SHR and SHL, whatever the y field. -/
def Obligations.ShiftsSetTheBitShiftedOut : Prop :=
  (∀ x y : RegIx, decode (0x8#4 ++ x ++ y ++ 0x6#4) = .ok (.shr x) ∧ decode (0x8#4 ++ x ++ y ++ 0xE#4) = .ok (.shl x)) ∧
  (∀ (x : RegIx) (s : State),
    (∃ t, exec (.shr x) s = .next t ∧
      (x ≠ 0xF → (t.reg x).toNat = (s.reg x).toNat / 2 ∧ (t.reg 0xF).toNat = (s.reg x).toNat % 2) ∧
      (x = 0xF → t.reg 0xF = 0) ∧ RegisterFrame [x, 0xF] s t) ∧
    (∃ t, exec (.shl x) s = .next t ∧
      (x ≠ 0xF → (t.reg x).toNat = 2 * (s.reg x).toNat % 256 ∧ (t.reg 0xF).toNat = (s.reg x).toNat / 128) ∧
      (x = 0xF → (t.reg 0xF).toNat = if 0x80 ≤ (s.reg x).toNat then 2 else 0) ∧ RegisterFrame [x, 0xF] s t))

/-- O38 (states R164). With f = VF and b = V[y] before: ADD VF leaves 1 iff f + b > 255, SUB VF 1 iff f >= b, SUBN VF 1
iff b >= f (else 0), SHR VF 0, SHL VF 2 if f >= 80 else 0. And DRW with x = 15 or y = 15 draws at the old VF: the
display afterwards is the one a DRW gives whose coordinate registers hold those values. -/
def Obligations.FlagAsDestinationFollowsTheTable : Prop :=
  (∀ (y : RegIx) (s : State),
    (∃ t, exec (.add 0xF y) s = .next t ∧ (t.reg 0xF).toNat = if 255 < (s.reg 0xF).toNat + (s.reg y).toNat then 1 else 0) ∧
    (∃ t, exec (.sub 0xF y) s = .next t ∧ (t.reg 0xF).toNat = if (s.reg y).toNat ≤ (s.reg 0xF).toNat then 1 else 0) ∧
    (∃ t, exec (.subn 0xF y) s = .next t ∧ (t.reg 0xF).toNat = if (s.reg 0xF).toNat ≤ (s.reg y).toNat then 1 else 0) ∧
    (∃ t, exec (.shr 0xF) s = .next t ∧ (t.reg 0xF).toNat = 0) ∧
    (∃ t, exec (.shl 0xF) s = .next t ∧ (t.reg 0xF).toNat = if 0x80 ≤ (s.reg 0xF).toNat then 2 else 0)) ∧
  ∀ (x y x' y' : RegIx) (n : Nibble) (s t t' : State), s.reg x = s.reg x' → s.reg y = s.reg y' → s.PHASE ≠ .halted →
    exec (.drw x y n) s = .next t → t.PHASE ≠ .halted → exec (.drw x' y' n) s = .next t' →
    t'.env.display = t.env.display ∧ t'.reg 0xF = t.reg 0xF

/-- O39 (states R161). exec of LDA nnn answers I = nnn zero-extended, so at most 0FFF; no register, flag or byte of memory
changes. Word Annn is LDA nnn. -/
def Obligations.LoadIndexImmediate : Prop :=
  (∀ nnn : Imm12, decode (0xA#4 ++ nnn) = .ok (.lda nnn)) ∧
  (∀ (nnn : Imm12) (s : State), ∃ t, exec (.lda nnn) s = .next t ∧ t.I.toNat = nnn.toNat ∧ t.I.toNat ≤ 0x0FFF ∧
    IndexFrame s t)

/-- O40 (states R162). exec of RND Vx, kk answers, for some byte r, V[x] = kk & r; r is the first byte the random source
holds where it holds one, which is then consumed, and any byte otherwise (a free value, log 1); bits of V[x] where kk
has a 0 are 0; no flag and nothing else changes. Word Cxkk is RND. No other instruction consumes a random byte. -/
def Obligations.RandomByteIsMasked : Prop :=
  (∀ (x : RegIx) (kk : Byte), decode (0xC#4 ++ x ++ kk) = .ok (.rnd x kk)) ∧
  (∀ (i : Instr) (s t : State), exec i s = .next t → t.env.random ≠ s.env.random → ∃ x kk, i = .rnd x kk) ∧
  (∀ (x : RegIx) (kk : Byte) (s : State), ∃ (t : State) (r : Byte), exec (.rnd x kk) s = .next t ∧
    t.reg x = kk &&& r ∧ (∀ k, kk.getLsbD k = false → (t.reg x).getLsbD k = false) ∧
    (∀ r' rest, s.env.random = r' :: rest → r = r') ∧
    t.env = { s.env with random := s.env.random.tail } ∧
    SameRegsBut [x] s t ∧ t.I = s.I ∧ t.pc = s.pc ∧ t.sp = s.sp ∧ SameControl s t ∧ SameMemory s t)

/-- O41 (states R180, R186). exec of CLS answers a state whose display has every pixel 0 and the same dimensions; every
register, VF among them, timer, pc and byte of memory is unchanged. Word 00E0 is CLS. -/
def Obligations.ClearTurnsEveryPixelOff : Prop :=
  (decode 0x00E0 = .ok .cls) ∧
  (∀ s : State, ∃ t, exec .cls s = .next t ∧ (∀ px py, t.env.display.pixel px py = false) ∧
    t.env.display.width = s.env.display.width ∧ t.env.display.height = s.env.display.height ∧
    t.env = { s.env with display := t.env.display } ∧
    SameRegsBut [] s t ∧ t.I = s.I ∧ t.pc = s.pc ∧ t.sp = s.sp ∧ SameControl s t ∧ SameMemory s t)

/-- O42 (rests on R181, R187). With n = 0 or I + n - 1 at most 0FFF, exec of DRW Vx, Vy, n answers a next state for every
display: VF is 0 or 1, only VF and the pixels change. On a well-formed display of width at least 8 and height at least
15 (where a sprite cannot meet itself): pixel (px, py) is flipped exactly if some row dy < n and column dx < 8 of the
sprite has a 1 bit (bit 7 - dx of M[I + dy]) and lands there, ((V[x] + dx) mod width, (V[y] + dy) mod height) = (px,
py); and VF = 1 exactly if such a pixel was on before. Bit order and what counts as touched are the spec's decisions
D19 and D21. -/
def Obligations.DrawXorsTheSpriteAndReportsCollision : Prop :=
  ∀ (x y : RegIx) (n : Nibble) (s : State), (n = 0 ∨ s.I.toNat + n.toNat - 1 ≤ 0x0FFF) →
    ∃ t, exec (.drw x y n) s = .next t ∧ (t.reg 0xF = 0 ∨ t.reg 0xF = 1) ∧
      t.env.display.width = s.env.display.width ∧ t.env.display.height = s.env.display.height ∧
      t.env = { s.env with display := t.env.display } ∧
      SameRegsBut [0xF] s t ∧ t.I = s.I ∧ t.pc = s.pc ∧ t.sp = s.sp ∧ SameControl s t ∧ SameMemory s t ∧
      (s.env.display.wf = true → 8 ≤ s.env.display.width → 15 ≤ s.env.display.height →
        (∀ px py, px < s.env.display.width → py < s.env.display.height →
          (t.env.display.pixel px py = true ↔
            ¬ (s.env.display.pixel px py = true ↔ spriteTouches s x y n px py))) ∧
        (t.reg 0xF = 1 ↔ ∃ px py, px < s.env.display.width ∧ py < s.env.display.height ∧
          spriteTouches s x y n px py ∧ s.env.display.pixel px py = true))

/-- O43 (rests on R181, R119, R242). With n at least 1 and I + n - 1 above 0FFF, exec of DRW answers the halted state with
MemoryFault at max(I, 1000), and no register, pixel or byte changes. -/
def Obligations.DrawOutsideMemoryFaults : Prop :=
  ∀ (x y : RegIx) (n : Nibble) (s : State), 1 ≤ n.toNat → 0x0FFF < s.I.toNat + n.toNat - 1 →
    exec (.drw x y n) s = .next (haltedBy s (.drw x y n) (if s.I.toNat < 0x1000 then 0x1000 else s.I))

/-- O44 (rests on R187, R195). On an all-off display of width at least 8 and height at least 15, with neither coordinate
in VF and the rows inside memory: the first DRW sets VF = 0; the same DRW again leaves every pixel off and sets VF = 1
if some row has a 1 bit, else 0. -/
def Obligations.DrawingTwiceRestoresTheDisplay : Prop :=
  ∀ (x y : RegIx) (n : Nibble) (s : State), x ≠ 0xF → y ≠ 0xF → (n = 0 ∨ s.I.toNat + n.toNat - 1 ≤ 0x0FFF) →
    s.env.display.lit = [] → 8 ≤ s.env.display.width → 15 ≤ s.env.display.height →
    ∃ t u, exec (.drw x y n) s = .next t ∧ t.reg 0xF = 0 ∧ exec (.drw x y n) t = .next u ∧
      (∀ px py, u.env.display.pixel px py = false) ∧
      ((∃ dy, dy < n.toNat ∧ s.M.read (s.I.toNat + dy) ≠ 0) → u.reg 0xF = 1) ∧
      (¬ (∃ dy, dy < n.toNat ∧ s.M.read (s.I.toNat + dy) ≠ 0) → u.reg 0xF = 0)

/-- O45 (states R182, R183). With V[x] at most 15 and k the key of that number, on the Input Adapter's answer to
KeyPressed(k) (the next answer the state holds where it holds one, otherwise a free value of the moment and of k, log
1), SKUP answers pc + 2 if k is not pressed and pc if it is, SKDN the other way round; the answer is consumed and
nothing else changes. With V[x] above 15 both are refused by name. Words Ex9E and ExA1 are SKUP and SKDN. -/
def Obligations.KeySkipsQueryTheKey : Prop :=
  (∀ x : RegIx, decode (0xE#4 ++ x ++ 0x9E#8) = .ok (.skup x) ∧ decode (0xE#4 ++ x ++ 0xA1#8) = .ok (.skdn x)) ∧
  (∀ (x : RegIx) (s : State),
    (∀ k : Nibble, k.toNat = (s.reg x).toNat → ∃ t u : State,
      s.keyPressed k = s.env.pressed.headD (Config.keyPressed s.env.moment k) ∧
      exec (.skup x) s = .next t ∧ t.pc = (if s.keyPressed k = false then s.pc + 2 else s.pc) ∧
      exec (.skdn x) s = .next u ∧ u.pc = (if s.keyPressed k = true then s.pc + 2 else s.pc) ∧
      ∀ v, v = t ∨ v = u → SameRegsBut [] s v ∧ v.I = s.I ∧ v.sp = s.sp ∧ SameControl s v ∧ SameMemory s v ∧
        v.env = { s.env with pressed := s.env.pressed.tail }) ∧
    (15 < (s.reg x).toNat →
      exec (.skup x) s = .refused (.keyIndex (s.reg x)) ∧ exec (.skdn x) s = .refused (.keyIndex (s.reg x))))

/-- O46 (rests on R184, R31). exec of WKEY Vx answers the state with PHASE = WAIT_KEY(x); every register, pc, the timers,
memory, FAULT and env are unchanged. The key-wait step that completes the instruction is the next statement. -/
def Obligations.WaitKeyEntersTheWait : Prop :=
  ∀ (x : RegIx) (s : State), ∃ t, exec (.wkey x) s = .next t ∧ t.PHASE = .waitKey x ∧
    SameRegsBut [] s t ∧ t.I = s.I ∧ t.pc = s.pc ∧ t.sp = s.sp ∧ t.DT = s.DT ∧ t.ST = s.ST ∧ t.FAULT = s.FAULT ∧
    SameMemory s t ∧ t.env = s.env

/-- O47 (states R184). exec of WKEY Vx enters WAIT_KEY(x). In WAIT_KEY(x), when the engine moves, on one answer a of the
Input Adapter (the next one the state holds where it holds one, otherwise a free value, log 1): if a is None, V and
PHASE are unchanged; if Mapped k, V[x] = k and PHASE = RUN; if Unmapped, V[x] is KEY_SENTINEL, a value of at least 10,
and PHASE = RUN. No other register, pc, I, sp, timer, byte of memory or FAULT changes. Word Fx0A is WKEY. A tick
during the wait counts both timers down and the wait goes on. -/
def Obligations.WaitKeyCompletesOnAKey : Prop :=
  (∀ x : RegIx, decode (0xF#4 ++ x ++ 0x0A#8) = .ok (.wkey x)) ∧
  (∀ (x : RegIx) (s : State), s.PHASE = .waitKey x → s.nextEvent = .tick → ∃ t, step s = .next t ∧ t.PHASE = .waitKey x ∧
    t.DT.toNat = s.DT.toNat - 1 ∧ t.ST.toNat = s.ST.toNat - 1 ∧ SameRegsBut [] s t ∧ t.pc = s.pc ∧ t.I = s.I ∧ t.sp = s.sp ∧
    SameMemory s t) ∧
  (∀ (x : RegIx) (s : State), exec (.wkey x) s = .next { s with PHASE := .waitKey x } ∧
    (s.PHASE = .waitKey x → s.nextEvent = .engine → ∃ (a : KeyAnswer) (t : State), step s = .next t ∧
      (∀ a' rest, s.env.current = a' :: rest → a = a') ∧
      (a = .none → t.reg x = s.reg x ∧ t.PHASE = .waitKey x) ∧
      (∀ k, a = .mapped k → (t.reg x).toNat = k.toNat ∧ t.PHASE = .run) ∧
      (a = .unmapped → t.reg x = Config.keySentinel ∧ 0x10 ≤ (t.reg x).toNat ∧ t.PHASE = .run) ∧
      SameRegsBut [x] s t ∧ t.I = s.I ∧ t.pc = s.pc ∧ t.sp = s.sp ∧ t.DT = s.DT ∧ t.ST = s.ST ∧ t.FAULT = s.FAULT ∧
      SameMemory s t ∧ t.env = { s.env.turned with current := s.env.current.tail }))

/-- O48 (states R210, R211, R212). Each completes on every state: GDT answers V[x] = DT; SDT answers DT = V[x]; SST
answers ST = V[x]; every other register, flag, timer and byte of memory is unchanged. Words Fx07, Fx15, Fx18 are GDT,
SDT, SST. -/
def Obligations.TimerInstructionsMoveTheirByte : Prop :=
  (∀ x : RegIx, decode (0xF#4 ++ x ++ 0x07#8) = .ok (.gdt x) ∧ decode (0xF#4 ++ x ++ 0x15#8) = .ok (.sdt x) ∧
    decode (0xF#4 ++ x ++ 0x18#8) = .ok (.sst x)) ∧
  (∀ (x : RegIx) (s : State),
    (∃ t, exec (.gdt x) s = .next t ∧ t.reg x = s.DT ∧ RegisterFrame [x] s t) ∧
    (∃ t, exec (.sdt x) s = .next t ∧ t.DT = s.reg x ∧ t.ST = s.ST ∧ SameRegsBut [] s t ∧ t.I = s.I ∧ t.pc = s.pc ∧
      t.sp = s.sp ∧ t.PHASE = s.PHASE ∧ t.FAULT = s.FAULT ∧ SameMemory s t ∧ t.env = s.env) ∧
    (∃ t, exec (.sst x) s = .next t ∧ t.ST = s.reg x ∧ t.DT = s.DT ∧ SameRegsBut [] s t ∧ t.I = s.I ∧ t.pc = s.pc ∧
      t.sp = s.sp ∧ t.PHASE = s.PHASE ∧ t.FAULT = s.FAULT ∧ SameMemory s t ∧ t.env = s.env))

/-- O49 (states R213, R214). exec of ADDA Vx answers I = (I + V[x]) mod 65536, exec of FNT Vx answers I = V[x]; VF, every
other register and all other state is unchanged. Words Fx1E and Fx29 are ADDA and FNT. -/
def Obligations.IndexArithmeticWithoutFlag : Prop :=
  (∀ x : RegIx, decode (0xF#4 ++ x ++ 0x1E#8) = .ok (.adda x) ∧ decode (0xF#4 ++ x ++ 0x29#8) = .ok (.fnt x)) ∧
  (∀ (x : RegIx) (s : State),
    (∃ t, exec (.adda x) s = .next t ∧ t.I.toNat = (s.I.toNat + (s.reg x).toNat) % 65536 ∧ IndexFrame s t) ∧
    (∃ t, exec (.fnt x) s = .next t ∧ t.I.toNat = (s.reg x).toNat + 0x000 ∧ IndexFrame s t))

/-- O50 (states R215). With I at most 0FFD: M[I] = v div 100, M[I+1] = v div 10 mod 10, M[I+2] = v mod 10, every other
byte, every register and I unchanged. With I above 0FFD: MemoryFault at max(I, 1000) and nothing else changes. Memory
is in canonical form, as every step keeps it. Word Fx33 is BCD. -/
def Obligations.BcdStoresThreeDigits : Prop :=
  (∀ x : RegIx, decode (0xF#4 ++ x ++ 0x33#8) = .ok (.bcd x)) ∧
  (∀ (x : RegIx) (s : State), Memory.wf s.M = true →
    (s.I.toNat ≤ 0x0FFD → ∃ t, exec (.bcd x) s = .next t ∧
      (t.M.read s.I.toNat).toNat = (s.reg x).toNat / 100 ∧
      (t.M.read (s.I.toNat + 1)).toNat = (s.reg x).toNat / 10 % 10 ∧
      (t.M.read (s.I.toNat + 2)).toNat = (s.reg x).toNat % 10 ∧ StoreFrame s.I.toNat 3 s t) ∧
    (0x0FFD < s.I.toNat → exec (.bcd x) s = .next (haltedBy s (.bcd x) (if s.I.toNat < 0x1000 then 0x1000 else s.I))))

/-- O51 (states R216). With I + x at most 0FFF: M[I + r] = V[r] for every r up to x, every other byte, every register and
I unchanged. With I + x above 0FFF: MemoryFault at max(I, 1000) and nothing else changes. Memory is in canonical form,
as every step keeps it. Word Fx55 is STM. -/
def Obligations.StoreMultipleWritesMemory : Prop :=
  (∀ x : RegIx, decode (0xF#4 ++ x ++ 0x55#8) = .ok (.stm x)) ∧
  (∀ (x : RegIx) (s : State), Memory.wf s.M = true →
    (s.I.toNat + x.toNat ≤ 0x0FFF → ∃ t, exec (.stm x) s = .next t ∧
      (∀ r : RegIx, r.toNat ≤ x.toNat → t.M.read (s.I.toNat + r.toNat) = s.reg r) ∧
      StoreFrame s.I.toNat (x.toNat + 1) s t) ∧
    (0x0FFF < s.I.toNat + x.toNat →
      exec (.stm x) s = .next (haltedBy s (.stm x) (if s.I.toNat < 0x1000 then 0x1000 else s.I))))

/-- O52 (states R217). With I + x at most 0FFF: V[r] = M[I + r] for every r up to x, every register above x, I and all
memory unchanged. With I + x above 0FFF: MemoryFault at max(I, 1000) and nothing else changes. And with memory in
canonical form, STM Vx followed, from any state with the same I and the same memory, by LDM Vx restores V0..Vx. Word
Fx65 is LDM. -/
def Obligations.LoadMultipleReadsMemory : Prop :=
  (∀ x : RegIx, decode (0xF#4 ++ x ++ 0x65#8) = .ok (.ldm x)) ∧
  (∀ (x : RegIx) (s : State),
    (s.I.toNat + x.toNat ≤ 0x0FFF → ∃ t, exec (.ldm x) s = .next t ∧
      (∀ r : RegIx, r.toNat ≤ x.toNat → t.reg r = s.M.read (s.I.toNat + r.toNat)) ∧
      (∀ r : RegIx, x.toNat < r.toNat → t.reg r = s.reg r) ∧
      t.I = s.I ∧ t.pc = s.pc ∧ t.sp = s.sp ∧ SameControl s t ∧ SameMemory s t ∧ t.env = s.env) ∧
    (0x0FFF < s.I.toNat + x.toNat →
      exec (.ldm x) s = .next (haltedBy s (.ldm x) (if s.I.toNat < 0x1000 then 0x1000 else s.I)))) ∧
  ∀ (x : RegIx) (s t u : State), Memory.wf s.M = true → s.I.toNat + x.toNat ≤ 0x0FFF → exec (.stm x) s = .next t →
    u.I = s.I → SameMemory t u →
    ∃ v, exec (.ldm x) u = .next v ∧ ∀ r : RegIx, r.toNat ≤ x.toNat → v.reg r = s.reg r

/-- O53 (rests on R64, R216). If the core is in RUN with pc at most 0FFE, and STM Vx stores to both bytes at pc (the
address of the next instruction, I <= pc and pc + 1 <= I + x, inside memory), then in the state after it pc is the
same and the word at pc is the two stored registers' bytes, whether or not they are an instruction; and if the engine
moves next, that step is exec of the instruction j they decode to, or, if they are illegal, the halt with
UnknownOpcode and that word. -/
def Obligations.StoreIsSeenByTheNextFetch : Prop :=
  ∀ (x r : RegIx) (s t : State), Memory.wf s.M = true → s.PHASE = .run →
    s.I.toNat + x.toNat ≤ 0x0FFF → r.toNat + 1 ≤ x.toNat → s.pc.toNat = s.I.toNat + r.toNat →
    exec (.stm x) s = .next t →
    t.pc = s.pc ∧ t.M.read t.pc.toNat ++ t.M.read (t.pc.toNat + 1) = s.reg r ++ s.reg (r + 1) ∧
    (∀ j, decode (s.reg r ++ s.reg (r + 1)) = .ok j → t.nextEvent = .engine →
      step t = exec j { t with pc := t.pc + 2, env := t.env.turned }) ∧
    (∀ e, decode (s.reg r ++ s.reg (r + 1)) = .error e → t.nextEvent = .engine →
      ∃ u, step t = .next u ∧ u.PHASE = .halted ∧
        u.FAULT = some { cause := .unknownOpcode, instr := s.reg r ++ s.reg (r + 1), pc := t.pc + 2, addr := 0 })

/-- O54 (rests on R260, R67, R261). In LOAD, when the host's load(a, b) moves: the cell a holds b, every other byte,
register, timer, PHASE and FAULT are unchanged; when its release moves: PHASE = RUN and nothing else changes. In RUN,
WAIT_KEY and HALTED, where the spec forbids them, both are refused by name (the form of the refusal follows U21: log
9). Memory is in its canonical form, as every step keeps it (O15). -/
def Obligations.HostWritesOnlyWhileTheCoreIsHeld : Prop :=
  ∀ s : State, Memory.wf s.M = true →
    (∀ (a : MemAddr) (b : Byte), s.nextEvent = .load a b →
      (s.PHASE = .load → ∃ t, step s = .next t ∧ t.M.read a.toNat = b ∧ SameMemoryBut a.toNat 1 s t ∧
        SameRegsBut [] s t ∧ t.I = s.I ∧ t.pc = s.pc ∧ t.sp = s.sp ∧ SameControl s t ∧ t.env = s.env.turned) ∧
      (s.PHASE ≠ .load → step s = .refused .hostAccess)) ∧
    (s.nextEvent = .release →
      (s.PHASE = .load → step s = .next { s with PHASE := .run, env := s.env.turned }) ∧
      (s.PHASE ≠ .load → step s = .refused .hostAccess))

/-- O55 (rests on R260, R282). In LOAD, with a font of at most 4096 bytes and a ROM of at most 3584, if the coming
interactions are load of each byte of the font from 0 up, load of each byte of the ROM from 0200 up, and release, then
after those steps the core is in RUN, each cell of the ROM's range holds the ROM's byte, each other cell of the font's
range the font's byte, every other cell what it held, and no register, timer or FAULT has changed: the state the whole
load (O13) gives. The images are any, whatever env holds, so after a reset other bytes can be loaded. -/
def Obligations.LoadingByteByByteIsTheLoadOfTheImages : Prop :=
  ∀ (s : State) (font rom : List Byte) (rest : List Event), Memory.wf s.M = true → s.PHASE = .load →
    font.length ≤ 4096 → rom.length ≤ 3584 →
    s.env.schedule = loadsFrom 0 font ++ loadsFrom 0x200 rom ++ .release :: rest →
    ∃ t, steps (font.length + rom.length + 1) s = .next t ∧ t.PHASE = .run ∧
      (∀ a, t.M.read a =
        if 0x200 ≤ a ∧ a < 0x200 + rom.length then rom.getD (a - 0x200) 0
        else if a < font.length then font.getD a 0 else s.M.read a) ∧
      SameRegsBut [] s t ∧ t.I = s.I ∧ t.pc = s.pc ∧ t.sp = s.sp ∧ t.DT = s.DT ∧ t.ST = s.ST ∧ t.FAULT = s.FAULT ∧
      t.env.schedule = rest

/-- O56 (rests on R181, R187). With n = 0 or I + n - 1 at most 0FFF, on every well-formed display, however small: exec of
DRW Vx, Vy, n answers a state in which pixel (px, py) is flipped exactly if an odd number of the sprite's 1 bits lands
on it (R187's loop draws bit after bit, so a sprite can meet itself), and VF = 1 exactly if some pixel that was on is
hit, or some pixel is hit twice or more; else VF = 0. x = 15 and y = 15 are no exception: the coordinates are the old
VF. Bit order and what counts as touched are the spec's decisions D19 and D21. -/
def Obligations.DrawOnAnyDisplayGoesByHowOftenAPixelIsHit : Prop :=
  ∀ (x y : RegIx) (n : Nibble) (s : State), (n = 0 ∨ s.I.toNat + n.toNat - 1 ≤ 0x0FFF) → s.env.display.wf = true →
    ∃ t, exec (.drw x y n) s = .next t ∧
      (∀ px py, px < s.env.display.width → py < s.env.display.height →
        (t.env.display.pixel px py = true ↔
          ¬ (s.env.display.pixel px py = true ↔ spriteHits s x y n px py % 2 = 1))) ∧
      t.reg 0xF ≤ 1 ∧
      (t.reg 0xF = 1 ↔ ∃ px py, px < s.env.display.width ∧ py < s.env.display.height ∧
        ((1 ≤ spriteHits s x y n px py ∧ s.env.display.pixel px py = true) ∨ 2 ≤ spriteHits s x y n px py))
end

