-- ==== Sys2Proof/Laws/Decode.lean ====
section
/-!
SUPPORT. The fields of a word put together from its fields, format by format (30_encoding.md R82), and the ranges of
operands.
-/

namespace Sys2Proof

/-- A field of a word, as arithmetic on the word's value: the one spec lemma the field lemmas below rest on. -/
theorem field_toNat (op : Word) (lo n : Nat) : (op.extractLsb' lo n).toNat = op.toNat / 2 ^ lo % 2 ^ n := by
  simp [BitVec.extractLsb'_toNat, Nat.shiftRight_eq_div_pow]

/-- A word put together from two parts, as arithmetic. -/
theorem append_toNat {m n : Nat} (a : BitVec m) (b : BitVec n) : (a ++ b).toNat = a.toNat * 2 ^ n + b.toNat := by
  rw [BitVec.toNat_append, Nat.shiftLeft_eq, Nat.mul_comm, Nat.two_pow_add_eq_or_of_lt b.isLt]

section Address
variable (f : Nibble) (nnn : Imm12)

theorem fieldFam_address : fieldFam (f ++ nnn) = f := by
  apply BitVec.eq_of_toNat_eq
  have := f.isLt; have := nnn.isLt
  rw [fieldFam, field_toNat, append_toNat]; omega

theorem fieldNnn_address : fieldNnn (f ++ nnn) = nnn := by
  apply BitVec.eq_of_toNat_eq
  have := f.isLt; have := nnn.isLt
  rw [fieldNnn, field_toNat, append_toNat]; omega

end Address

section RegisterByte
variable (f : Nibble) (x : RegIx) (kk : Byte)

theorem fieldFam_registerByte : fieldFam (f ++ x ++ kk) = f := by
  apply BitVec.eq_of_toNat_eq
  have := f.isLt; have := x.isLt; have := kk.isLt
  rw [fieldFam, field_toNat, append_toNat, append_toNat]; omega

theorem fieldX_registerByte : fieldX (f ++ x ++ kk) = x := by
  apply BitVec.eq_of_toNat_eq
  have := f.isLt; have := x.isLt; have := kk.isLt
  rw [fieldX, field_toNat, append_toNat, append_toNat]; omega

theorem fieldKk_registerByte : fieldKk (f ++ x ++ kk) = kk := by
  apply BitVec.eq_of_toNat_eq
  have := f.isLt; have := x.isLt; have := kk.isLt
  rw [fieldKk, field_toNat, append_toNat, append_toNat]; omega

end RegisterByte

section FourNibbles
variable (f : Nibble) (x y : RegIx) (n : Nibble)

theorem fieldFam_nibbles : fieldFam (f ++ x ++ y ++ n) = f := by
  apply BitVec.eq_of_toNat_eq
  have := f.isLt; have := x.isLt; have := y.isLt; have := n.isLt
  rw [fieldFam, field_toNat, append_toNat, append_toNat, append_toNat]; omega

theorem fieldX_nibbles : fieldX (f ++ x ++ y ++ n) = x := by
  apply BitVec.eq_of_toNat_eq
  have := f.isLt; have := x.isLt; have := y.isLt; have := n.isLt
  rw [fieldX, field_toNat, append_toNat, append_toNat, append_toNat]; omega

theorem fieldY_nibbles : fieldY (f ++ x ++ y ++ n) = y := by
  apply BitVec.eq_of_toNat_eq
  have := f.isLt; have := x.isLt; have := y.isLt; have := n.isLt
  rw [fieldY, field_toNat, append_toNat, append_toNat, append_toNat]; omega

theorem fieldN_nibbles : fieldN (f ++ x ++ y ++ n) = n := by
  apply BitVec.eq_of_toNat_eq
  have := f.isLt; have := x.isLt; have := y.isLt; have := n.isLt
  rw [fieldN, field_toNat, append_toNat, append_toNat, append_toNat]; omega

end FourNibbles

/-- A word is the concatenation of its four nibbles (R81). -/
theorem word_eq_nibbles (op : Word) : op = fieldFam op ++ fieldX op ++ fieldY op ++ fieldN op := by
  apply BitVec.eq_of_toNat_eq
  have := op.isLt
  simp only [append_toNat, fieldFam, fieldX, fieldY, fieldN, field_toNat]; omega

/-- A 16-bit word is put together again from its bytes (R53). -/
theorem wordOfBytes_high_low (w : Word) : wordOfBytes (highByte w) (lowByte w) = w := by
  apply BitVec.eq_of_toNat_eq
  have := w.isLt
  simp only [wordOfBytes, highByte, lowByte, append_toNat, field_toNat]; omega

/-- The font fits when it has at most 4096 bytes (R282). -/
theorem fontFits_iff (font : List Byte) : fontFits font = true ↔ font.length ≤ 4096 := by
  rw [fontFits, decide_eq_true_eq]; exact Iff.rfl

/-- The ROM fits when it has at most 3584 bytes (R282). -/
theorem romFits_iff (rom : List Byte) : romFits rom = true ↔ rom.length ≤ 3584 := by
  rw [romFits, decide_eq_true_eq]; exact Iff.rfl

/-- Every operand is in range, whatever the instruction (R83). -/
theorem wellFormed_all (i : Instr) : i.wellFormed = true := by
  have reg (x : RegIx) : regInRange x = true := by have := x.isLt; simp [regInRange]; omega
  have cnt (n : Nibble) : countInRange n = true := reg n
  have byte (k : Byte) : byteInRange k = true := by have := k.isLt; simp [byteInRange]; omega
  have addr (k : Imm12) : addrInRange k = true := by have := k.isLt; simp [addrInRange]; omega
  cases i <;> simp [Instr.wellFormed, reg, cnt, byte, addr]

end Sys2Proof
end

