-- ==== Sys2Proof/Laws/Display.lean ====
section
/-!
SUPPORT. The pixel list of the reference display: toggling keeps its canonical form and flips exactly one pixel, and a
draw keeps the dimensions.
-/

namespace Sys2Proof.Machine

/-- The canonical form from a lower position on. -/
theorem litFrom_mono {hi : Nat} {l : List Nat} {lo lo' : Nat} (h : Display.litFrom hi lo l = true) (hl : lo' ≤ lo) :
    Display.litFrom hi lo' l = true := by
  cases l with
  | nil => rfl
  | cons q rest =>
    simp only [Display.litFrom, Bool.and_eq_true, decide_eq_true_eq] at h ⊢
    exact ⟨⟨by omega, h.1.2⟩, h.2⟩

/-- A canonical list from `lo` on holds nothing below `lo`. -/
theorem litFrom_ge {hi : Nat} {l : List Nat} : ∀ {lo p : Nat}, Display.litFrom hi lo l = true → p ∈ l → lo ≤ p := by
  induction l with
  | nil => intro lo p _ hp; cases hp
  | cons q rest ih =>
    intro lo p h hp
    simp only [Display.litFrom, Bool.and_eq_true, decide_eq_true_eq] at h
    cases hp with
    | head => exact h.1.1
    | tail _ hp => have := ih h.2 hp; omega

/-- Toggling a position keeps the canonical form. -/
theorem litFrom_toggleIn {hi p : Nat} (hp : p < hi) {l : List Nat} : ∀ {lo : Nat}, Display.litFrom hi lo l = true → lo ≤ p →
    Display.litFrom hi lo (toggleIn l p) = true := by
  induction l with
  | nil => intro lo _ hl; simp [toggleIn, Display.litFrom, hp, hl]
  | cons q rest ih =>
    intro lo h hl
    simp only [Display.litFrom, Bool.and_eq_true, decide_eq_true_eq] at h
    obtain ⟨⟨h1, h2⟩, h3⟩ := h
    simp only [toggleIn]
    split
    · simp only [Display.litFrom, Bool.and_eq_true, decide_eq_true_eq]
      exact ⟨⟨hl, hp⟩, ⟨by omega, h2⟩, h3⟩
    · split
      · exact litFrom_mono h3 (by omega)
      · simp only [Display.litFrom, Bool.and_eq_true, decide_eq_true_eq]
        exact ⟨⟨h1, h2⟩, ih h3 (by omega)⟩

/-- Toggling flips exactly the one position (R187). -/
theorem mem_toggleIn {hi : Nat} {l : List Nat} (p c : Nat) : ∀ {lo : Nat}, Display.litFrom hi lo l = true →
    (c ∈ toggleIn l p ↔ if c = p then c ∉ l else c ∈ l) := by
  induction l with
  | nil => intro lo _; simp [toggleIn]
  | cons q rest ih =>
    intro lo h
    simp only [Display.litFrom, Bool.and_eq_true, decide_eq_true_eq] at h
    have ge : ∀ {d}, d ∈ rest → q + 1 ≤ d := fun hd => litFrom_ge h.2 hd
    simp only [toggleIn]
    by_cases h1 : p < q
    · rw [if_pos h1]
      by_cases hc : c = p
      · subst hc
        have hr : c ∉ rest := fun hd => by have := ge hd; omega
        have hq : c ≠ q := by omega
        simp [hr, hq]
      · simp [hc]
    · rw [if_neg h1]
      by_cases h2 : p = q
      · rw [if_pos h2]
        by_cases hc : c = p
        · subst hc; subst h2
          have hr : c ∉ rest := fun hd => by have := ge hd; omega
          simp [hr]
        · have : c ≠ q := fun e => hc (by omega)
          simp [hc, this]
      · rw [if_neg h2, List.mem_cons, ih h.2]
        by_cases hc : c = p
        · have : c ≠ q := by omega
          rw [if_pos hc, if_pos hc, List.mem_cons]
          simp only [this, false_or]
        · simp [hc]

/-- A pixel's position lies in the array (R185). -/
theorem Display.position_lt {d : Display} (hw : 0 < d.width) (hh : 0 < d.height) (tx ty : Nat) :
    d.position tx ty < d.width * d.height := by
  have h1 : ty % d.height + 1 ≤ d.height := Nat.mod_lt _ hh
  have h2 := Nat.mod_lt tx hw
  have h3 := Nat.mul_le_mul_right d.width h1
  rw [Nat.add_mul, Nat.one_mul, Nat.mul_comm d.height] at h3
  unfold Display.position; omega

/-- Toggling one pixel keeps the display well-formed. -/
theorem Display.wf_toggle {d : Display} (h : d.wf = true) (tx ty : Nat) : (d.toggle tx ty).wf = true := by
  simp only [Display.wf, Bool.and_eq_true, decide_eq_true_eq] at h ⊢
  exact ⟨h.1, litFrom_toggleIn (Display.position_lt h.1.1 h.1.2 tx ty) h.2 (Nat.zero_le _)⟩

/-- Clearing keeps the display well-formed (R186). -/
theorem Display.wf_clear {d : Display} (h : d.wf = true) : d.clear.wf = true := by
  simp only [Display.wf, Bool.and_eq_true, decide_eq_true_eq] at h ⊢
  exact ⟨h.1, rfl⟩

/-- One bit keeps the display well-formed and its dimensions. -/
theorem drawBit_keeps (bit : Bool) (tx ty : Nat) (dc : Display × Bool) :
    (dc.1.wf = true → (drawBit bit tx ty dc).1.wf = true) ∧
    (drawBit bit tx ty dc).1.width = dc.1.width ∧ (drawBit bit tx ty dc).1.height = dc.1.height := by
  cases bit
  · exact ⟨id, rfl, rfl⟩
  · exact ⟨fun h => Display.wf_toggle h tx ty, rfl, rfl⟩

/-- One row keeps the display well-formed and its dimensions. -/
theorem drawColumns_keeps (row : Byte) (x ty : Nat) (dc : Display × Bool) : ∀ k,
    (dc.1.wf = true → (drawColumns row x ty k dc).1.wf = true) ∧
    (drawColumns row x ty k dc).1.width = dc.1.width ∧ (drawColumns row x ty k dc).1.height = dc.1.height
  | 0 => ⟨id, rfl, rfl⟩
  | k + 1 => by
    obtain ⟨h1, h2, h3⟩ := drawColumns_keeps row x ty dc k
    obtain ⟨g1, g2, g3⟩ := drawBit_keeps (row.getLsbD (7 - k)) (x + k) ty (drawColumns row x ty k dc)
    exact ⟨fun h => g1 (h1 h), g2.trans h2, g3.trans h3⟩

/-- The rows of a sprite keep the display well-formed and its dimensions. -/
theorem drawRows_keeps (x : Nat) : ∀ (rows : List Byte) (ty : Nat) (dc : Display × Bool),
    (dc.1.wf = true → (drawRows x ty rows dc).1.wf = true) ∧
    (drawRows x ty rows dc).1.width = dc.1.width ∧ (drawRows x ty rows dc).1.height = dc.1.height
  | [], _, _ => ⟨id, rfl, rfl⟩
  | row :: rest, ty, dc => by
    obtain ⟨h1, h2, h3⟩ := drawColumns_keeps row x ty dc 8
    obtain ⟨g1, g2, g3⟩ := drawRows_keeps x rest (ty + 1) (drawColumns row x ty 8 dc)
    exact ⟨fun h => g1 (h1 h), g2.trans h2, g3.trans h3⟩

/-- A draw keeps the display well-formed and its dimensions (R187). -/
theorem Display.draw_keeps (d : Display) (rows : List Byte) (x y : Byte) :
    (d.wf = true → (d.draw rows x y).1.wf = true) ∧ (d.draw rows x y).1.width = d.width ∧ (d.draw rows x y).1.height = d.height :=
  drawRows_keeps x.toNat rows y.toNat (d, false)

/-! Which pixels a draw flips -/

/-- Two positions are the same only where the wrapped coordinates are the same. -/
theorem Display.position_eq {d : Display} (hw : 0 < d.width) (tx ty tx' ty' : Nat) :
    d.position tx ty = d.position tx' ty' ↔ tx % d.width = tx' % d.width ∧ ty % d.height = ty' % d.height := by
  constructor
  · intro h
    have hx := Nat.mod_lt tx hw
    have hx' := Nat.mod_lt tx' hw
    unfold Display.position at h
    have key : ∀ a b p q : Nat, p < d.width → q < d.width → a * d.width + p = b * d.width + q → a = b := by
      intro a b p q hp hq e
      have ha : (a * d.width + p) / d.width = a := by
        rw [Nat.mul_comm, Nat.mul_add_div hw, Nat.div_eq_of_lt hp, Nat.add_zero]
      have hb : (b * d.width + q) / d.width = b := by
        rw [Nat.mul_comm, Nat.mul_add_div hw, Nat.div_eq_of_lt hq, Nat.add_zero]
      rw [← ha, e, hb]
    have hy := key _ _ _ _ hx hx' h
    rw [hy] at h
    exact ⟨by omega, hy⟩
  · rintro ⟨h1, h2⟩
    unfold Display.position; rw [h1, h2]

/-- Two numbers less than a width apart have different remainders. -/
theorem mod_ne_of_near {w a b c : Nat} (hb : b < w) (hc : c < b) : (a + c) % w ≠ (a + b) % w := by
  intro h
  have : (w : Nat) ∣ (a + b) - (a + c) := (Nat.modEq_iff_dvd' (by omega)).mp h
  have h2 : a + b - (a + c) = b - c := by omega
  rw [h2] at this
  have := Nat.le_of_dvd (by omega) this
  omega

/-- The pixels the first `k` columns of a row touch. -/
def columnsTouch (d : Display) (row : Byte) (x ty k c : Nat) : Prop :=
  ∃ dx, dx < k ∧ row.getLsbD (7 - dx) = true ∧ d.position (x + dx) ty = c

/-- Columns of one row, on a display at least as wide as the row: each touched pixel is flipped once, and the answer says
whether one of them was on (R187). -/
theorem drawColumns_touches {row : Byte} {x ty : Nat} {dc : Display × Bool} (hd : dc.1.wf = true) (h8 : 8 ≤ dc.1.width) :
    ∀ k, k ≤ 8 →
      (∀ c, c ∈ (drawColumns row x ty k dc).1.lit ↔ ¬ (c ∈ dc.1.lit ↔ columnsTouch dc.1 row x ty k c)) ∧
      ((drawColumns row x ty k dc).2 = true ↔ dc.2 = true ∨ ∃ c, columnsTouch dc.1 row x ty k c ∧ c ∈ dc.1.lit)
  | 0, _ => by
    have hn : ∀ c, ¬ columnsTouch dc.1 row x ty 0 c := fun c ⟨_, h, _⟩ => absurd h (Nat.not_lt_zero _)
    constructor
    · intro c; simp only [drawColumns, hn, iff_false, not_not]
    · simp only [drawColumns, hn, false_and, exists_false, or_false]
  | k + 1, hk => by
    obtain ⟨ih1, ih2⟩ := drawColumns_touches hd h8 (row := row) (x := x) (ty := ty) k (by omega)
    obtain ⟨w1, w2, w3⟩ := drawColumns_keeps row x ty dc k
    have hpos : ∀ a b, (drawColumns row x ty k dc).1.position a b = dc.1.position a b := fun a b => by
      unfold Display.position; rw [w2, w3]
    have hstep : ∀ c, columnsTouch dc.1 row x ty (k + 1) c ↔
        columnsTouch dc.1 row x ty k c ∨ (row.getLsbD (7 - k) = true ∧ dc.1.position (x + k) ty = c) := by
      intro c
      constructor
      · rintro ⟨dx, h1, h2, h3⟩
        by_cases e : dx = k
        · subst e; exact .inr ⟨h2, h3⟩
        · exact .inl ⟨dx, by omega, h2, h3⟩
      · rintro (⟨dx, h1, h2, h3⟩ | ⟨h2, h3⟩)
        · exact ⟨dx, by omega, h2, h3⟩
        · exact ⟨k, by omega, h2, h3⟩
    have hnew : ¬ columnsTouch dc.1 row x ty k (dc.1.position (x + k) ty) := by
      rintro ⟨dx, h1, _, h3⟩
      exact mod_ne_of_near (w := dc.1.width) (a := x) (by omega) h1 ((Display.position_eq (by omega) _ _ _ _).mp h3).1
    have hwf := w1 hd
    simp only [Display.wf, Bool.and_eq_true, decide_eq_true_eq] at hwf
    show (∀ c, c ∈ (drawBit (row.getLsbD (7 - k)) (x + k) ty (drawColumns row x ty k dc)).1.lit ↔ _) ∧
      ((drawBit (row.getLsbD (7 - k)) (x + k) ty (drawColumns row x ty k dc)).2 = true ↔ _)
    cases hb : row.getLsbD (7 - k) with
    | false =>
      simp only [drawBit, hstep, hb, Bool.false_eq_true, false_and, or_false, if_false]
      exact ⟨ih1, ih2⟩
    | true =>
      simp only [drawBit, if_true, hstep, hb, true_and]
      constructor
      · intro c
        show c ∈ toggleIn _ _ ↔ _
        rw [mem_toggleIn _ _ hwf.2, ih1, hpos]
        by_cases hc : c = dc.1.position (x + k) ty
        · subst hc; simp only [if_true, hnew, or_true]; tauto
        · have hc' : ¬ dc.1.position (x + k) ty = c := fun e => hc e.symm
          simp only [hc, hc', if_false, or_false]
      · rw [Bool.or_eq_true, ih2]
        have hp : (drawColumns row x ty k dc).1.pixel (x + k) ty = true ↔ dc.1.position (x + k) ty ∈ dc.1.lit := by
          unfold Display.pixel
          rw [List.contains_iff_mem, hpos, ih1]
          simp only [hnew, iff_false, not_not]
        rw [hp]
        constructor
        · rintro ((h | ⟨c, h1, h2⟩) | h)
          · exact .inl h
          · exact .inr ⟨c, .inl h1, h2⟩
          · exact .inr ⟨_, .inr rfl, h⟩
        · rintro (h | ⟨c, h1 | rfl, h2⟩)
          · exact .inl (.inl h)
          · exact .inl (.inr ⟨c, h1, h2⟩)
          · exact .inr h2

/-- The pixels the rows of a sprite touch. -/
def rowsTouch (d : Display) (rows : List Byte) (x ty c : Nat) : Prop :=
  ∃ dy dx, dy < rows.length ∧ dx < 8 ∧ (rows.getD dy 0).getLsbD (7 - dx) = true ∧ d.position (x + dx) (ty + dy) = c

/-- The rows of a sprite, on a display at least as wide and high as the sprite: each touched pixel is flipped once, and the
answer says whether one of them was on (R187). -/
theorem drawRows_touches {x : Nat} : ∀ {rows : List Byte} {ty : Nat} {dc : Display × Bool}, dc.1.wf = true → 8 ≤ dc.1.width →
    rows.length ≤ dc.1.height →
      (∀ c, c ∈ (drawRows x ty rows dc).1.lit ↔ ¬ (c ∈ dc.1.lit ↔ rowsTouch dc.1 rows x ty c)) ∧
      ((drawRows x ty rows dc).2 = true ↔ dc.2 = true ∨ ∃ c, rowsTouch dc.1 rows x ty c ∧ c ∈ dc.1.lit)
  | [], ty, dc, _, _, _ => by
    have hn : ∀ c, ¬ rowsTouch dc.1 [] x ty c := fun c ⟨_, _, h, _⟩ => absurd h (Nat.not_lt_zero _)
    constructor
    · intro c; simp only [drawRows, hn, iff_false, not_not]
    · simp only [drawRows, hn, false_and, exists_false, or_false]
  | row :: rest, ty, dc, hd, h8, hl => by
    obtain ⟨c1, c2⟩ := drawColumns_touches hd h8 (row := row) (x := x) (ty := ty) 8 (Nat.le_refl 8)
    obtain ⟨w1, w2, w3⟩ := drawColumns_keeps row x ty dc 8
    simp only [List.length_cons] at hl
    obtain ⟨r1, r2⟩ := drawRows_touches (x := x) (rows := rest) (ty := ty + 1) (w1 hd) (by omega) (by omega)
    have hrest : ∀ c, rowsTouch (drawColumns row x ty 8 dc).1 rest x (ty + 1) c ↔ rowsTouch dc.1 rest x (ty + 1) c := fun c => by
      unfold rowsTouch Display.position; rw [w2, w3]
    have hstep : ∀ c, rowsTouch dc.1 (row :: rest) x ty c ↔
        columnsTouch dc.1 row x ty 8 c ∨ rowsTouch dc.1 rest x (ty + 1) c := by
      intro c
      constructor
      · rintro ⟨dy, dx, h1, h2, h3, h4⟩
        cases dy with
        | zero => exact .inl ⟨dx, h2, h3, h4⟩
        | succ e =>
          refine .inr ⟨e, dx, by simpa using h1, h2, h3, ?_⟩
          rw [Nat.add_assoc, Nat.add_comm 1 e]; exact h4
      · rintro (⟨dx, h2, h3, h4⟩ | ⟨e, dx, h1, h2, h3, h4⟩)
        · exact ⟨0, dx, by simp, h2, h3, h4⟩
        · refine ⟨e + 1, dx, by simpa using h1, h2, h3, ?_⟩
          rw [Nat.add_comm e 1, ← Nat.add_assoc]; exact h4
    have hdis : ∀ c, columnsTouch dc.1 row x ty 8 c → ¬ rowsTouch dc.1 rest x (ty + 1) c := by
      rintro c ⟨dx, _, _, h3⟩ ⟨e, dx', h1, _, _, h4⟩
      have h := ((Display.position_eq (by omega) _ _ _ _).mp (h3.trans h4.symm)).2
      rw [Nat.add_assoc] at h
      exact mod_ne_of_near (w := dc.1.height) (a := ty) (b := 1 + e) (c := 0) (by omega) (by omega) h
    simp only [drawRows]
    constructor
    · intro c
      rw [r1, c1, hrest, hstep]
      have := hdis c
      tauto
    · rw [r2, c2]
      simp only [hrest, hstep]
      constructor
      · rintro ((h | ⟨c, h1, h2⟩) | ⟨c, h1, h2⟩)
        · exact .inl h
        · exact .inr ⟨c, .inl h1, h2⟩
        · have hc := (c1 c).mp h2
          have := hdis c
          exact .inr ⟨c, .inr h1, by tauto⟩
      · rintro (h | ⟨c, h1 | h1, h2⟩)
        · exact .inl (.inl h)
        · exact .inl (.inr ⟨c, h1, h2⟩)
        · have := hdis c
          exact .inr ⟨c, h1, (c1 c).mpr (by tauto)⟩

/-- A draw on a display that the sprite cannot meet itself on: the touched pixels are flipped, and the collision answer says
whether one of them was on (R187). -/
theorem Display.draw_touches {d : Display} {rows : List Byte} (x y : Byte) (hd : d.wf = true) (h8 : 8 ≤ d.width)
    (hl : rows.length ≤ d.height) :
    (∀ c, c ∈ (d.draw rows x y).1.lit ↔ ¬ (c ∈ d.lit ↔ rowsTouch d rows x.toNat y.toNat c)) ∧
    ((d.draw rows x y).2 = true ↔ ∃ c, rowsTouch d rows x.toNat y.toNat c ∧ c ∈ d.lit) := by
  obtain ⟨h1, h2⟩ := drawRows_touches (x := x.toNat) (ty := y.toNat) (dc := (d, false)) hd h8 hl
  exact ⟨h1, by rw [Display.draw, h2]; simp⟩

/-! A draw on any display, on which a sprite may meet itself: how often each pixel is hit decides -/

/-- One hit of a pixel: the exclusive or with 1, and a collision where it was on (R187). -/
def hitPixel (dc : Display × Bool) (p : Nat) : Display × Bool :=
  ({ dc.1 with lit := toggleIn dc.1.lit p }, dc.2 || dc.1.lit.contains p)

/-- The pixels the first `k` columns of a row hit, in the order of R187's loop. -/
def columnHits (d : Display) (row : Byte) (x ty k : Nat) : List Nat :=
  ((List.range k).filter fun dx => row.getLsbD (7 - dx)).map fun dx => d.position (x + dx) ty

/-- The pixels the rows of a sprite hit, in the order of R187's loop. -/
def rowHits (d : Display) (x : Nat) : Nat → List Byte → List Nat
  | _, [] => []
  | ty, row :: rest => columnHits d row x ty 8 ++ rowHits d x (ty + 1) rest

/-- The columns of a row are their hits, one after the other. -/
theorem drawColumns_eq_hits (row : Byte) (x ty : Nat) (dc : Display × Bool) : ∀ k,
    drawColumns row x ty k dc = (columnHits dc.1 row x ty k).foldl hitPixel dc
  | 0 => rfl
  | k + 1 => by
    obtain ⟨_, w2, w3⟩ := drawColumns_keeps row x ty dc k
    have hpos : (drawColumns row x ty k dc).1.position (x + k) ty = dc.1.position (x + k) ty := by
      unfold Display.position; rw [w2, w3]
    rw [columnHits, List.range_succ, List.filter_append, List.map_append, List.foldl_append]
    show drawBit _ _ _ (drawColumns row x ty k dc) = List.foldl hitPixel ((columnHits dc.1 row x ty k).foldl hitPixel dc) _
    rw [← drawColumns_eq_hits row x ty dc k]
    cases hb : row.getLsbD (7 - k) with
    | false => simp only [drawBit, List.filter, hb, Bool.false_eq_true, if_false, List.map_nil, List.foldl_nil]
    | true =>
      simp only [drawBit, List.filter, hb, if_true, List.map_cons, List.map_nil, List.foldl_cons, List.foldl_nil, hitPixel,
        Display.toggle, Display.pixel, hpos]

/-- Hits depend on the display's dimensions alone. -/
theorem rowHits_congr {d e : Display} (hw : e.width = d.width) (hh : e.height = d.height) (x : Nat) : ∀ rows ty,
    rowHits e x ty rows = rowHits d x ty rows
  | [], _ => rfl
  | row :: rest, ty => by
    have hpos : ∀ a b, e.position a b = d.position a b := fun a b => by unfold Display.position; rw [hw, hh]
    simp only [rowHits, columnHits, hpos, rowHits_congr hw hh x rest]

/-- The rows of a sprite are their hits, one after the other. -/
theorem drawRows_eq_hits (x : Nat) : ∀ (rows : List Byte) (ty : Nat) (dc : Display × Bool),
    drawRows x ty rows dc = (rowHits dc.1 x ty rows).foldl hitPixel dc
  | [], _, _ => rfl
  | row :: rest, ty, dc => by
    obtain ⟨_, w2, w3⟩ := drawColumns_keeps row x ty dc 8
    rw [drawRows, drawRows_eq_hits x rest, rowHits, List.foldl_append, rowHits_congr w2 w3, ← drawColumns_eq_hits]

/-- What a list of hits does: a pixel hit an odd number of times is flipped, and there is a collision exactly if a pixel that
was on is hit, or one is hit twice (R187). -/
theorem foldl_hitPixel {hi : Nat} : ∀ {ps : List Nat} {dc : Display × Bool}, (∀ p ∈ ps, p < hi) →
    Display.litFrom hi 0 dc.1.lit = true →
    (∀ c, c ∈ (ps.foldl hitPixel dc).1.lit ↔ ¬ (c ∈ dc.1.lit ↔ ps.count c % 2 = 1)) ∧
    ((ps.foldl hitPixel dc).2 = true ↔
      dc.2 = true ∨ ∃ c, (1 ≤ ps.count c ∧ c ∈ dc.1.lit) ∨ 2 ≤ ps.count c)
  | [], dc, _, _ => by simp
  | p :: ps, dc, hps, hd => by
    have hp : p < hi := hps p (List.mem_cons_self ..)
    obtain ⟨h1, h2⟩ := foldl_hitPixel (ps := ps) (dc := hitPixel dc p) (fun q hq => hps q (List.mem_cons_of_mem _ hq))
      (litFrom_toggleIn hp hd (Nat.zero_le _))
    have hmem : ∀ c, c ∈ (hitPixel dc p).1.lit ↔ if c = p then c ∉ dc.1.lit else c ∈ dc.1.lit := fun c => mem_toggleIn p c hd
    have hself : (p :: ps).count p = ps.count p + 1 := List.count_cons_self
    have hother : ∀ {c}, c ≠ p → (p :: ps).count c = ps.count c := fun h => List.count_cons_of_ne (Ne.symm h)
    constructor
    · intro c
      rw [List.foldl_cons, h1, hmem]
      by_cases hc : c = p
      · subst hc
        rw [if_pos rfl, hself]
        have : (ps.count c + 1) % 2 = 1 ↔ ¬ ps.count c % 2 = 1 := by omega
        rw [this]; tauto
      · rw [if_neg hc, hother hc]
    · have hcol : (hitPixel dc p).2 = true ↔ dc.2 = true ∨ p ∈ dc.1.lit := by
        simp only [hitPixel, Bool.or_eq_true, List.contains_iff_mem]
      rw [List.foldl_cons, h2, hcol]
      constructor
      · rintro ((h | h) | ⟨c, h⟩)
        · exact .inl h
        · exact .inr ⟨p, .inl ⟨by omega, h⟩⟩
        · refine .inr ⟨c, ?_⟩
          by_cases hc : c = p
          · subst hc; rw [hself]
            exact .inr (by omega)
          · rw [hother hc]
            rw [hmem, if_neg hc] at h
            exact h
      · rintro (h | ⟨c, h⟩)
        · exact .inl (.inl h)
        · by_cases hc : c = p
          · subst hc
            by_cases hl : c ∈ dc.1.lit
            · exact .inl (.inr hl)
            · refine .inr ⟨c, .inl ⟨?_, (hmem c).mpr (by rw [if_pos rfl]; exact hl)⟩⟩
              rw [hself] at h
              obtain ⟨_, h⟩ | h := h
              · exact absurd h hl
              · omega
          · rw [hother hc] at h
            refine .inr ⟨c, ?_⟩
            rw [hmem, if_neg hc]
            exact h

/-- How many 1 bits of the rows land on a position, counted row by row and column by column. -/
def hitCount (d : Display) (rows : List Byte) (x ty c : Nat) : Nat :=
  ((List.range rows.length).map fun dy =>
    (List.range 8).countP fun dx => (rows.getD dy 0).getLsbD (7 - dx) && decide (d.position (x + dx) (ty + dy) = c)).sum

/-- The hits counted are the hits of the loop. -/
theorem count_rowHits (d : Display) (x c : Nat) : ∀ (rows : List Byte) (ty : Nat),
    (rowHits d x ty rows).count c = hitCount d rows x ty c
  | [], _ => rfl
  | row :: rest, ty => by
    rw [rowHits, List.count_append, count_rowHits d x c rest, hitCount, hitCount, List.length_cons,
      List.range_succ_eq_map (n := rest.length), List.map_cons, List.sum_cons, List.map_map]
    congr 1
    · simp only [columnHits, List.count, List.countP_map, List.countP_filter]
      congr 1; funext dx
      exact Bool.and_comm _ _
    · congr 1
      apply List.map_congr_left
      intro dy _
      simp [Nat.add_assoc, Nat.add_comm 1]

/-- A draw on any display: a pixel is flipped exactly if an odd number of 1 bits lands on it, and the collision answer says
whether a pixel that was on is hit, or one is hit twice (R187). -/
theorem Display.draw_hits {d : Display} (rows : List Byte) (x y : Byte) (hd : d.wf = true) :
    (∀ c, c ∈ (d.draw rows x y).1.lit ↔ ¬ (c ∈ d.lit ↔ hitCount d rows x.toNat y.toNat c % 2 = 1)) ∧
    ((d.draw rows x y).2 = true ↔ ∃ c, (1 ≤ hitCount d rows x.toNat y.toNat c ∧ c ∈ d.lit) ∨
      2 ≤ hitCount d rows x.toNat y.toNat c) := by
  simp only [Display.wf, Bool.and_eq_true, decide_eq_true_eq] at hd
  have hlt : ∀ (rows : List Byte) ty, ∀ p ∈ rowHits d x.toNat ty rows, p < d.width * d.height := by
    intro rows
    induction rows with
    | nil => intro ty p hp; cases hp
    | cons row rest ih =>
      intro ty p hp
      rw [rowHits, List.mem_append] at hp
      obtain hp | hp := hp
      · obtain ⟨dx, _, rfl⟩ := List.mem_map.mp hp
        exact Display.position_lt hd.1.1 hd.1.2 _ _
      · exact ih _ p hp
  obtain ⟨h1, h2⟩ := foldl_hitPixel (dc := (d, false)) (hlt rows y.toNat) hd.2
  simp only [count_rowHits, ← drawRows_eq_hits x.toNat rows y.toNat (d, false)] at h1 h2
  exact ⟨h1, by rw [Display.draw, h2]; simp⟩

end Sys2Proof.Machine
end

