-- ==== Sys2Proof/Laws/State.lean ====
section
/-!
SUPPORT. One lemma per field of State per update, true by rfl, so that no proof unfolds a record update. What `setReg` and
`setFlag` do to the registers is said by `reg_setReg` and `reg_setFlag` (Laws/Ops.lean).
-/

namespace Sys2Proof.Machine

variable (s : State)

@[simp] theorem State.setReg_M (x : RegIx) (b : Byte) : (s.setReg x b).M = s.M := rfl
@[simp] theorem State.setReg_I (x : RegIx) (b : Byte) : (s.setReg x b).I = s.I := rfl
@[simp] theorem State.setReg_pc (x : RegIx) (b : Byte) : (s.setReg x b).pc = s.pc := rfl
@[simp] theorem State.setReg_sp (x : RegIx) (b : Byte) : (s.setReg x b).sp = s.sp := rfl
@[simp] theorem State.setReg_DT (x : RegIx) (b : Byte) : (s.setReg x b).DT = s.DT := rfl
@[simp] theorem State.setReg_ST (x : RegIx) (b : Byte) : (s.setReg x b).ST = s.ST := rfl
@[simp] theorem State.setReg_PHASE (x : RegIx) (b : Byte) : (s.setReg x b).PHASE = s.PHASE := rfl
@[simp] theorem State.setReg_FAULT (x : RegIx) (b : Byte) : (s.setReg x b).FAULT = s.FAULT := rfl
@[simp] theorem State.setReg_env (x : RegIx) (b : Byte) : (s.setReg x b).env = s.env := rfl

@[simp] theorem State.setFlag_M (c : Bool) : (s.setFlag c).M = s.M := rfl
@[simp] theorem State.setFlag_I (c : Bool) : (s.setFlag c).I = s.I := rfl
@[simp] theorem State.setFlag_pc (c : Bool) : (s.setFlag c).pc = s.pc := rfl
@[simp] theorem State.setFlag_sp (c : Bool) : (s.setFlag c).sp = s.sp := rfl
@[simp] theorem State.setFlag_DT (c : Bool) : (s.setFlag c).DT = s.DT := rfl
@[simp] theorem State.setFlag_ST (c : Bool) : (s.setFlag c).ST = s.ST := rfl
@[simp] theorem State.setFlag_PHASE (c : Bool) : (s.setFlag c).PHASE = s.PHASE := rfl
@[simp] theorem State.setFlag_FAULT (c : Bool) : (s.setFlag c).FAULT = s.FAULT := rfl
@[simp] theorem State.setFlag_env (c : Bool) : (s.setFlag c).env = s.env := rfl

@[simp] theorem State.setI_M (w : Word) : (s.setI w).M = s.M := rfl
@[simp] theorem State.setI_V (w : Word) : (s.setI w).V = s.V := rfl
@[simp] theorem State.setI_I (w : Word) : (s.setI w).I = w := rfl
@[simp] theorem State.setI_pc (w : Word) : (s.setI w).pc = s.pc := rfl
@[simp] theorem State.setI_sp (w : Word) : (s.setI w).sp = s.sp := rfl
@[simp] theorem State.setI_DT (w : Word) : (s.setI w).DT = s.DT := rfl
@[simp] theorem State.setI_ST (w : Word) : (s.setI w).ST = s.ST := rfl
@[simp] theorem State.setI_PHASE (w : Word) : (s.setI w).PHASE = s.PHASE := rfl
@[simp] theorem State.setI_FAULT (w : Word) : (s.setI w).FAULT = s.FAULT := rfl
@[simp] theorem State.setI_env (w : Word) : (s.setI w).env = s.env := rfl

@[simp] theorem State.setPc_M (w : Word) : (s.setPc w).M = s.M := rfl
@[simp] theorem State.setPc_V (w : Word) : (s.setPc w).V = s.V := rfl
@[simp] theorem State.setPc_I (w : Word) : (s.setPc w).I = s.I := rfl
@[simp] theorem State.setPc_pc (w : Word) : (s.setPc w).pc = w := rfl
@[simp] theorem State.setPc_sp (w : Word) : (s.setPc w).sp = s.sp := rfl
@[simp] theorem State.setPc_DT (w : Word) : (s.setPc w).DT = s.DT := rfl
@[simp] theorem State.setPc_ST (w : Word) : (s.setPc w).ST = s.ST := rfl
@[simp] theorem State.setPc_PHASE (w : Word) : (s.setPc w).PHASE = s.PHASE := rfl
@[simp] theorem State.setPc_FAULT (w : Word) : (s.setPc w).FAULT = s.FAULT := rfl
@[simp] theorem State.setPc_env (w : Word) : (s.setPc w).env = s.env := rfl

@[simp] theorem State.setSp_M (w : Word) : (s.setSp w).M = s.M := rfl
@[simp] theorem State.setSp_V (w : Word) : (s.setSp w).V = s.V := rfl
@[simp] theorem State.setSp_I (w : Word) : (s.setSp w).I = s.I := rfl
@[simp] theorem State.setSp_pc (w : Word) : (s.setSp w).pc = s.pc := rfl
@[simp] theorem State.setSp_sp (w : Word) : (s.setSp w).sp = w := rfl
@[simp] theorem State.setSp_DT (w : Word) : (s.setSp w).DT = s.DT := rfl
@[simp] theorem State.setSp_ST (w : Word) : (s.setSp w).ST = s.ST := rfl
@[simp] theorem State.setSp_PHASE (w : Word) : (s.setSp w).PHASE = s.PHASE := rfl
@[simp] theorem State.setSp_FAULT (w : Word) : (s.setSp w).FAULT = s.FAULT := rfl
@[simp] theorem State.setSp_env (w : Word) : (s.setSp w).env = s.env := rfl

@[simp] theorem State.setDT_M (b : Byte) : (s.setDT b).M = s.M := rfl
@[simp] theorem State.setDT_V (b : Byte) : (s.setDT b).V = s.V := rfl
@[simp] theorem State.setDT_I (b : Byte) : (s.setDT b).I = s.I := rfl
@[simp] theorem State.setDT_pc (b : Byte) : (s.setDT b).pc = s.pc := rfl
@[simp] theorem State.setDT_sp (b : Byte) : (s.setDT b).sp = s.sp := rfl
@[simp] theorem State.setDT_DT (b : Byte) : (s.setDT b).DT = b := rfl
@[simp] theorem State.setDT_ST (b : Byte) : (s.setDT b).ST = s.ST := rfl
@[simp] theorem State.setDT_PHASE (b : Byte) : (s.setDT b).PHASE = s.PHASE := rfl
@[simp] theorem State.setDT_FAULT (b : Byte) : (s.setDT b).FAULT = s.FAULT := rfl
@[simp] theorem State.setDT_env (b : Byte) : (s.setDT b).env = s.env := rfl

@[simp] theorem State.setST_M (b : Byte) : (s.setST b).M = s.M := rfl
@[simp] theorem State.setST_V (b : Byte) : (s.setST b).V = s.V := rfl
@[simp] theorem State.setST_I (b : Byte) : (s.setST b).I = s.I := rfl
@[simp] theorem State.setST_pc (b : Byte) : (s.setST b).pc = s.pc := rfl
@[simp] theorem State.setST_sp (b : Byte) : (s.setST b).sp = s.sp := rfl
@[simp] theorem State.setST_DT (b : Byte) : (s.setST b).DT = s.DT := rfl
@[simp] theorem State.setST_ST (b : Byte) : (s.setST b).ST = b := rfl
@[simp] theorem State.setST_PHASE (b : Byte) : (s.setST b).PHASE = s.PHASE := rfl
@[simp] theorem State.setST_FAULT (b : Byte) : (s.setST b).FAULT = s.FAULT := rfl
@[simp] theorem State.setST_env (b : Byte) : (s.setST b).env = s.env := rfl

@[simp] theorem State.setM_M (m : Memory) : (s.setM m).M = m := rfl
@[simp] theorem State.setM_V (m : Memory) : (s.setM m).V = s.V := rfl
@[simp] theorem State.setM_I (m : Memory) : (s.setM m).I = s.I := rfl
@[simp] theorem State.setM_pc (m : Memory) : (s.setM m).pc = s.pc := rfl
@[simp] theorem State.setM_sp (m : Memory) : (s.setM m).sp = s.sp := rfl
@[simp] theorem State.setM_DT (m : Memory) : (s.setM m).DT = s.DT := rfl
@[simp] theorem State.setM_ST (m : Memory) : (s.setM m).ST = s.ST := rfl
@[simp] theorem State.setM_PHASE (m : Memory) : (s.setM m).PHASE = s.PHASE := rfl
@[simp] theorem State.setM_FAULT (m : Memory) : (s.setM m).FAULT = s.FAULT := rfl
@[simp] theorem State.setM_env (m : Memory) : (s.setM m).env = s.env := rfl

@[simp] theorem State.store_M (a : Nat) (b : Byte) : (s.store a b).M = s.M.write a b := rfl
@[simp] theorem State.store_V (a : Nat) (b : Byte) : (s.store a b).V = s.V := rfl
@[simp] theorem State.store_I (a : Nat) (b : Byte) : (s.store a b).I = s.I := rfl
@[simp] theorem State.store_pc (a : Nat) (b : Byte) : (s.store a b).pc = s.pc := rfl
@[simp] theorem State.store_sp (a : Nat) (b : Byte) : (s.store a b).sp = s.sp := rfl
@[simp] theorem State.store_DT (a : Nat) (b : Byte) : (s.store a b).DT = s.DT := rfl
@[simp] theorem State.store_ST (a : Nat) (b : Byte) : (s.store a b).ST = s.ST := rfl
@[simp] theorem State.store_PHASE (a : Nat) (b : Byte) : (s.store a b).PHASE = s.PHASE := rfl
@[simp] theorem State.store_FAULT (a : Nat) (b : Byte) : (s.store a b).FAULT = s.FAULT := rfl
@[simp] theorem State.store_env (a : Nat) (b : Byte) : (s.store a b).env = s.env := rfl

@[simp] theorem State.setPhase_M (p : Phase) : (s.setPhase p).M = s.M := rfl
@[simp] theorem State.setPhase_V (p : Phase) : (s.setPhase p).V = s.V := rfl
@[simp] theorem State.setPhase_I (p : Phase) : (s.setPhase p).I = s.I := rfl
@[simp] theorem State.setPhase_pc (p : Phase) : (s.setPhase p).pc = s.pc := rfl
@[simp] theorem State.setPhase_sp (p : Phase) : (s.setPhase p).sp = s.sp := rfl
@[simp] theorem State.setPhase_DT (p : Phase) : (s.setPhase p).DT = s.DT := rfl
@[simp] theorem State.setPhase_ST (p : Phase) : (s.setPhase p).ST = s.ST := rfl
@[simp] theorem State.setPhase_PHASE (p : Phase) : (s.setPhase p).PHASE = p := rfl
@[simp] theorem State.setPhase_FAULT (p : Phase) : (s.setPhase p).FAULT = s.FAULT := rfl
@[simp] theorem State.setPhase_env (p : Phase) : (s.setPhase p).env = s.env := rfl

@[simp] theorem State.setEnv_M (e : Env) : (s.setEnv e).M = s.M := rfl
@[simp] theorem State.setEnv_V (e : Env) : (s.setEnv e).V = s.V := rfl
@[simp] theorem State.setEnv_I (e : Env) : (s.setEnv e).I = s.I := rfl
@[simp] theorem State.setEnv_pc (e : Env) : (s.setEnv e).pc = s.pc := rfl
@[simp] theorem State.setEnv_sp (e : Env) : (s.setEnv e).sp = s.sp := rfl
@[simp] theorem State.setEnv_DT (e : Env) : (s.setEnv e).DT = s.DT := rfl
@[simp] theorem State.setEnv_ST (e : Env) : (s.setEnv e).ST = s.ST := rfl
@[simp] theorem State.setEnv_PHASE (e : Env) : (s.setEnv e).PHASE = s.PHASE := rfl
@[simp] theorem State.setEnv_FAULT (e : Env) : (s.setEnv e).FAULT = s.FAULT := rfl
@[simp] theorem State.setEnv_env (e : Env) : (s.setEnv e).env = e := rfl

@[simp] theorem State.setDisplay_M (d : Display) : (s.setDisplay d).M = s.M := rfl
@[simp] theorem State.setDisplay_V (d : Display) : (s.setDisplay d).V = s.V := rfl
@[simp] theorem State.setDisplay_I (d : Display) : (s.setDisplay d).I = s.I := rfl
@[simp] theorem State.setDisplay_pc (d : Display) : (s.setDisplay d).pc = s.pc := rfl
@[simp] theorem State.setDisplay_sp (d : Display) : (s.setDisplay d).sp = s.sp := rfl
@[simp] theorem State.setDisplay_DT (d : Display) : (s.setDisplay d).DT = s.DT := rfl
@[simp] theorem State.setDisplay_ST (d : Display) : (s.setDisplay d).ST = s.ST := rfl
@[simp] theorem State.setDisplay_PHASE (d : Display) : (s.setDisplay d).PHASE = s.PHASE := rfl
@[simp] theorem State.setDisplay_FAULT (d : Display) : (s.setDisplay d).FAULT = s.FAULT := rfl
@[simp] theorem State.setDisplay_env (d : Display) : (s.setDisplay d).env = { s.env with display := d } := rfl

@[simp] theorem State.advancePc_M : (s.advancePc).M = s.M := rfl
@[simp] theorem State.advancePc_V : (s.advancePc).V = s.V := rfl
@[simp] theorem State.advancePc_I : (s.advancePc).I = s.I := rfl
@[simp] theorem State.advancePc_pc : (s.advancePc).pc = s.pc + 2 := rfl
@[simp] theorem State.advancePc_sp : (s.advancePc).sp = s.sp := rfl
@[simp] theorem State.advancePc_DT : (s.advancePc).DT = s.DT := rfl
@[simp] theorem State.advancePc_ST : (s.advancePc).ST = s.ST := rfl
@[simp] theorem State.advancePc_PHASE : (s.advancePc).PHASE = s.PHASE := rfl
@[simp] theorem State.advancePc_FAULT : (s.advancePc).FAULT = s.FAULT := rfl
@[simp] theorem State.advancePc_env : (s.advancePc).env = s.env := rfl

@[simp] theorem State.afterRandom_M : (s.afterRandom).M = s.M := rfl
@[simp] theorem State.afterRandom_V : (s.afterRandom).V = s.V := rfl
@[simp] theorem State.afterRandom_I : (s.afterRandom).I = s.I := rfl
@[simp] theorem State.afterRandom_pc : (s.afterRandom).pc = s.pc := rfl
@[simp] theorem State.afterRandom_sp : (s.afterRandom).sp = s.sp := rfl
@[simp] theorem State.afterRandom_DT : (s.afterRandom).DT = s.DT := rfl
@[simp] theorem State.afterRandom_ST : (s.afterRandom).ST = s.ST := rfl
@[simp] theorem State.afterRandom_PHASE : (s.afterRandom).PHASE = s.PHASE := rfl
@[simp] theorem State.afterRandom_FAULT : (s.afterRandom).FAULT = s.FAULT := rfl
@[simp] theorem State.afterRandom_env : (s.afterRandom).env = { s.env with random := s.env.random.tail } := rfl

@[simp] theorem State.afterKeyPressed_M : (s.afterKeyPressed).M = s.M := rfl
@[simp] theorem State.afterKeyPressed_V : (s.afterKeyPressed).V = s.V := rfl
@[simp] theorem State.afterKeyPressed_I : (s.afterKeyPressed).I = s.I := rfl
@[simp] theorem State.afterKeyPressed_pc : (s.afterKeyPressed).pc = s.pc := rfl
@[simp] theorem State.afterKeyPressed_sp : (s.afterKeyPressed).sp = s.sp := rfl
@[simp] theorem State.afterKeyPressed_DT : (s.afterKeyPressed).DT = s.DT := rfl
@[simp] theorem State.afterKeyPressed_ST : (s.afterKeyPressed).ST = s.ST := rfl
@[simp] theorem State.afterKeyPressed_PHASE : (s.afterKeyPressed).PHASE = s.PHASE := rfl
@[simp] theorem State.afterKeyPressed_FAULT : (s.afterKeyPressed).FAULT = s.FAULT := rfl
@[simp] theorem State.afterKeyPressed_env : (s.afterKeyPressed).env = { s.env with pressed := s.env.pressed.tail } := rfl

@[simp] theorem State.afterKeyCurrent_M : (s.afterKeyCurrent).M = s.M := rfl
@[simp] theorem State.afterKeyCurrent_V : (s.afterKeyCurrent).V = s.V := rfl
@[simp] theorem State.afterKeyCurrent_I : (s.afterKeyCurrent).I = s.I := rfl
@[simp] theorem State.afterKeyCurrent_pc : (s.afterKeyCurrent).pc = s.pc := rfl
@[simp] theorem State.afterKeyCurrent_sp : (s.afterKeyCurrent).sp = s.sp := rfl
@[simp] theorem State.afterKeyCurrent_DT : (s.afterKeyCurrent).DT = s.DT := rfl
@[simp] theorem State.afterKeyCurrent_ST : (s.afterKeyCurrent).ST = s.ST := rfl
@[simp] theorem State.afterKeyCurrent_PHASE : (s.afterKeyCurrent).PHASE = s.PHASE := rfl
@[simp] theorem State.afterKeyCurrent_FAULT : (s.afterKeyCurrent).FAULT = s.FAULT := rfl
@[simp] theorem State.afterKeyCurrent_env : (s.afterKeyCurrent).env = { s.env with current := s.env.current.tail } := rfl

@[simp] theorem State.turn_M : (s.turn).M = s.M := rfl
@[simp] theorem State.turn_V : (s.turn).V = s.V := rfl
@[simp] theorem State.turn_I : (s.turn).I = s.I := rfl
@[simp] theorem State.turn_pc : (s.turn).pc = s.pc := rfl
@[simp] theorem State.turn_sp : (s.turn).sp = s.sp := rfl
@[simp] theorem State.turn_DT : (s.turn).DT = s.DT := rfl
@[simp] theorem State.turn_ST : (s.turn).ST = s.ST := rfl
@[simp] theorem State.turn_PHASE : (s.turn).PHASE = s.PHASE := rfl
@[simp] theorem State.turn_FAULT : (s.turn).FAULT = s.FAULT := rfl
@[simp] theorem State.turn_env : (s.turn).env = { s.env with schedule := s.env.schedule.tail, moment := s.env.moment + 1 } := rfl

@[simp] theorem State.engineNext_M : (s.engineNext).M = s.M := rfl
@[simp] theorem State.engineNext_V : (s.engineNext).V = s.V := rfl
@[simp] theorem State.engineNext_I : (s.engineNext).I = s.I := rfl
@[simp] theorem State.engineNext_pc : (s.engineNext).pc = s.pc := rfl
@[simp] theorem State.engineNext_sp : (s.engineNext).sp = s.sp := rfl
@[simp] theorem State.engineNext_DT : (s.engineNext).DT = s.DT := rfl
@[simp] theorem State.engineNext_ST : (s.engineNext).ST = s.ST := rfl
@[simp] theorem State.engineNext_PHASE : (s.engineNext).PHASE = s.PHASE := rfl
@[simp] theorem State.engineNext_FAULT : (s.engineNext).FAULT = s.FAULT := rfl
@[simp] theorem State.engineNext_env : (s.engineNext).env = { s.env with schedule := .engine :: s.env.schedule } := rfl

@[simp] theorem State.raise_M (c : Cause) (w a : Word) : (s.raise c w a).M = s.M := rfl
@[simp] theorem State.raise_V (c : Cause) (w a : Word) : (s.raise c w a).V = s.V := rfl
@[simp] theorem State.raise_I (c : Cause) (w a : Word) : (s.raise c w a).I = s.I := rfl
@[simp] theorem State.raise_pc (c : Cause) (w a : Word) : (s.raise c w a).pc = s.pc := rfl
@[simp] theorem State.raise_sp (c : Cause) (w a : Word) : (s.raise c w a).sp = s.sp := rfl
@[simp] theorem State.raise_DT (c : Cause) (w a : Word) : (s.raise c w a).DT = s.DT := rfl
@[simp] theorem State.raise_ST (c : Cause) (w a : Word) : (s.raise c w a).ST = s.ST := rfl
@[simp] theorem State.raise_PHASE (c : Cause) (w a : Word) : (s.raise c w a).PHASE = .halted := rfl
@[simp] theorem State.raise_FAULT (c : Cause) (w a : Word) : (s.raise c w a).FAULT = some { cause := c, instr := w, pc := s.pc, addr := a } := rfl
@[simp] theorem State.raise_env (c : Cause) (w a : Word) : (s.raise c w a).env = s.env := rfl

end Sys2Proof.Machine
end

