-- ==== Sys2Proof/Laws/Ops.lean ====
section
/-!
SUPPORT. What the shared operations over memory and registers do, each said once: the provers cite these instead of
unfolding the operations.
-/

namespace Sys2Proof.Machine

/-! Data registers -/

/-- A register read after a register write (R21). -/
theorem State.reg_setReg (s : State) (x r : RegIx) (b : Byte) :
    (s.setReg x b).reg r = if r = x then b else s.reg r := by
  show (s.V.set x.toNat b x.isLt)[r.toNat] = _
  rw [Vector.getElem_set]
  by_cases h : r = x
  · simp [h]
  · have : x.toNat ≠ r.toNat := fun e => h (BitVec.eq_of_toNat_eq e.symm)
    simp only [h, this, if_false]; rfl

/-- A register read after a flag write (R22). -/
theorem State.reg_setFlag (s : State) (r : RegIx) (c : Bool) :
    (s.setFlag c).reg r = if r = 0xF then (if c then 0x01 else 0x00) else s.reg r := s.reg_setReg vf r _

/-- Registers depend on `V` alone. -/
theorem State.reg_congr {s t : State} (h : t.V = s.V) (r : RegIx) : t.reg r = s.reg r := by
  unfold State.reg; rw [h]

@[simp] theorem State.reg_setI (s : State) (w : Word) (r : RegIx) : (s.setI w).reg r = s.reg r := rfl
@[simp] theorem State.reg_setPc (s : State) (w : Word) (r : RegIx) : (s.setPc w).reg r = s.reg r := rfl
@[simp] theorem State.reg_setSp (s : State) (w : Word) (r : RegIx) : (s.setSp w).reg r = s.reg r := rfl
@[simp] theorem State.reg_setDT (s : State) (b : Byte) (r : RegIx) : (s.setDT b).reg r = s.reg r := rfl
@[simp] theorem State.reg_setST (s : State) (b : Byte) (r : RegIx) : (s.setST b).reg r = s.reg r := rfl
@[simp] theorem State.reg_setM (s : State) (m : Memory) (r : RegIx) : (s.setM m).reg r = s.reg r := rfl
@[simp] theorem State.reg_store (s : State) (a : Nat) (b : Byte) (r : RegIx) : (s.store a b).reg r = s.reg r := rfl
@[simp] theorem State.reg_setPhase (s : State) (p : Phase) (r : RegIx) : (s.setPhase p).reg r = s.reg r := rfl
@[simp] theorem State.reg_setEnv (s : State) (e : Env) (r : RegIx) : (s.setEnv e).reg r = s.reg r := rfl
@[simp] theorem State.reg_setDisplay (s : State) (d : Display) (r : RegIx) : (s.setDisplay d).reg r = s.reg r := rfl
@[simp] theorem State.reg_advancePc (s : State) (r : RegIx) : s.advancePc.reg r = s.reg r := rfl
@[simp] theorem State.reg_afterRandom (s : State) (r : RegIx) : s.afterRandom.reg r = s.reg r := rfl
@[simp] theorem State.reg_afterKeyPressed (s : State) (r : RegIx) : s.afterKeyPressed.reg r = s.reg r := rfl
@[simp] theorem State.reg_afterKeyCurrent (s : State) (r : RegIx) : s.afterKeyCurrent.reg r = s.reg r := rfl
@[simp] theorem State.reg_turn (s : State) (r : RegIx) : s.turn.reg r = s.reg r := rfl
@[simp] theorem State.reg_raise (s : State) (c : Cause) (w a : Word) (r : RegIx) : (s.raise c w a).reg r = s.reg r := rfl

/-! Memory -/

/-- From `lo` up, a memory in canonical form lists no address below `lo`. -/
theorem Memory.read_below {m : Memory} : ∀ {lo a : Nat}, Memory.wfFrom lo m = true → a < lo → Memory.read m a = Memory.unlisted := by
  induction m with
  | nil => intros; rfl
  | cons cell rest ih =>
    intro lo a h ha
    obtain ⟨c, x⟩ := cell
    simp only [Memory.wfFrom, Bool.and_eq_true, decide_eq_true_eq] at h
    have hne : c ≠ a := by omega
    simp only [Memory.read, hne, if_false]
    exact ih h.2 (by omega)

/-- The canonical form from a lower address on. -/
theorem Memory.wfFrom_mono {m : Memory} {lo lo' : Nat} (h : Memory.wfFrom lo m = true) (hl : lo' ≤ lo) : Memory.wfFrom lo' m = true := by
  cases m with
  | nil => rfl
  | cons cell rest =>
    obtain ⟨c, x⟩ := cell
    simp only [Memory.wfFrom, Bool.and_eq_true, decide_eq_true_eq] at h ⊢
    exact ⟨⟨⟨by omega, h.1.1.2⟩, h.1.2⟩, h.2⟩

/-- A read after a write, in canonical form from some address on. -/
theorem Memory.read_write_from {m : Memory} (b : Byte) : ∀ {lo a c : Nat}, Memory.wfFrom lo m = true →
    Memory.read (Memory.write m a b) c = if c = a then b else Memory.read m c := by
  induction m with
  | nil =>
    intro lo a c _
    by_cases hb : b = Memory.unlisted
    · simp [Memory.write, Memory.read, hb]
    · by_cases h : a = c
      · simp [Memory.write, Memory.read, hb, h]
      · have : c ≠ a := fun e => h e.symm
        simp [Memory.write, Memory.read, hb, h, this]
  | cons cell rest ih =>
    intro lo a c h
    obtain ⟨d, x⟩ := cell
    have hw := h
    simp only [Memory.wfFrom, Bool.and_eq_true, decide_eq_true_eq] at h
    have below : ∀ {e}, e < d + 1 → Memory.read rest e = Memory.unlisted := fun he => Memory.read_below h.2 he
    by_cases hlt : a < d
    · by_cases hb : b = Memory.unlisted
      · by_cases hc : c = a
        · subst hc
          have : d ≠ c := by omega
          simp [Memory.write, Memory.read, hb, hlt, this, below (by omega : c < d + 1)]
        · simp [Memory.write, hb, hlt, hc]
      · by_cases hc : c = a
        · simp [Memory.write, Memory.read, hb, hlt, hc]
        · have : a ≠ c := fun e => hc e.symm
          simp [Memory.write, Memory.read, hb, hlt, hc, this]
    · by_cases hd : a = d
      · subst hd
        by_cases hb : b = Memory.unlisted
        · by_cases hc : c = a
          · simp [Memory.write, hb, hc, below (by omega : a < a + 1)]
          · have : a ≠ c := fun e => hc e.symm
            simp [Memory.write, Memory.read, hb, hc, this]
        · by_cases hc : c = a
          · simp [Memory.write, Memory.read, hb, hc]
          · have : a ≠ c := fun e => hc e.symm
            simp [Memory.write, Memory.read, hb, hc, this]
      · by_cases hc : d = c
        · have hca : c ≠ a := by omega
          subst hc
          simp [Memory.write, Memory.read, hlt, hd, hca]
        · simp only [Memory.write, Memory.read, hlt, hd, hc, if_false]
          exact ih h.2

/-- A read after a write gives the byte written there and the old byte elsewhere (R57, R60). -/
theorem Memory.read_write {m : Memory} (hm : Memory.wf m = true) (a c : Nat) (b : Byte) :
    Memory.read (Memory.write m a b) c = if c = a then b else Memory.read m c := Memory.read_write_from b hm

/-- A write keeps the canonical form, from an address at or below the one written on. -/
theorem Memory.wfFrom_write {m : Memory} (b : Byte) {a : Nat} (ha : a < Config.memSize) : ∀ {lo : Nat},
    Memory.wfFrom lo m = true → lo ≤ a → Memory.wfFrom lo (Memory.write m a b) = true := by
  induction m with
  | nil =>
    intro lo _ hl
    by_cases hb : b = Memory.unlisted
    · simp [Memory.write, Memory.wfFrom, hb]
    · simp [Memory.write, Memory.wfFrom, hb, hl, ha]
  | cons cell rest ih =>
    intro lo h hl
    obtain ⟨d, x⟩ := cell
    simp only [Memory.wfFrom, Bool.and_eq_true, decide_eq_true_eq] at h
    obtain ⟨⟨⟨h1, h2⟩, h3⟩, h4⟩ := h
    simp only [Memory.write]
    split
    · split
      · simp [Memory.wfFrom, h1, h2, h3, h4]
      · have : a + 1 ≤ d := by omega
        simp [Memory.wfFrom, *]
    · split
      · split
        · exact Memory.wfFrom_mono h4 (by omega)
        · have : a = d := by assumption
          subst this
          simp [Memory.wfFrom, *]
      · simp [Memory.wfFrom, h1, h2, h3]
        exact ih h4 (by omega)

/-- Every write inside memory keeps the canonical form. -/
theorem Memory.wf_write {m : Memory} (hm : Memory.wf m = true) {a : Nat} (ha : a < Config.memSize) (b : Byte) :
    Memory.wf (Memory.write m a b) = true := Memory.wfFrom_write b ha hm (Nat.zero_le a)

/-- Writing a list of bytes inside memory keeps the canonical form. -/
theorem Memory.wf_writeAll {bs : List Byte} : ∀ {m : Memory} {a : Nat}, Memory.wf m = true → a + bs.length ≤ Config.memSize →
    Memory.wf (Memory.writeAll m a bs) = true := by
  induction bs with
  | nil => intro m a hm _; exact hm
  | cons b rest ih =>
    intro m a hm h
    simp only [List.length_cons] at h
    exact ih (Memory.wf_write hm (by omega) b) (by omega)

/-- What a list of bytes written from `a` up leaves in each cell (R282). -/
theorem Memory.read_writeAll {bs : List Byte} : ∀ {m : Memory} {a : Nat}, Memory.wf m = true → a + bs.length ≤ Config.memSize →
    ∀ c, Memory.read (Memory.writeAll m a bs) c = if a ≤ c ∧ c < a + bs.length then bs.getD (c - a) 0 else Memory.read m c := by
  induction bs with
  | nil => intro m a _ _ c; simp only [Memory.writeAll, List.length_nil]; rw [if_neg (by omega)]
  | cons b rest ih =>
    intro m a hm h c
    simp only [List.length_cons] at h
    show Memory.read (Memory.writeAll (Memory.write m a b) (a + 1) rest) c = _
    rw [ih (Memory.wf_write hm (by omega) b) (by omega) c, Memory.read_write hm]
    simp only [List.length_cons]
    by_cases hc : c = a
    · subst hc; simp
    · by_cases hin : a + 1 ≤ c ∧ c < a + 1 + rest.length
      · rw [if_pos hin, if_pos (by omega), show c - a = (c - (a + 1)) + 1 by omega]; rfl
      · rw [if_neg hin, if_neg hc, if_neg (by omega)]

/-- Reading a run of cells byte by byte (R181). -/
theorem Memory.readAll_eq (m : Memory) : ∀ (n a : Nat), Memory.readAll m a n = (List.range n).map (fun r => Memory.read m (a + r))
  | 0, _ => rfl
  | n + 1, a => by
    rw [Memory.readAll, Memory.readAll_eq m n (a + 1), List.range_succ_eq_map]
    simp [Nat.add_assoc, Nat.add_comm 1]

/-- `STM`'s loop keeps the canonical form (R216). -/
theorem State.wf_storeRegs {s : State} (hs : Memory.wf s.M = true) (a : Nat) :
    ∀ n, a + n ≤ Config.memSize → Memory.wf (s.storeRegs a n) = true
  | 0, _ => hs
  | n + 1, h => Memory.wf_write (State.wf_storeRegs hs a n (by omega)) (by omega) _

/-- What `STM`'s loop leaves in each cell (R216). -/
theorem State.read_storeRegs {s : State} (hs : Memory.wf s.M = true) (a : Nat) : ∀ n, a + n ≤ Config.memSize → ∀ c,
    Memory.read (s.storeRegs a n) c = if a ≤ c ∧ c < a + n then s.reg (BitVec.ofNat 4 (c - a)) else s.M.read c
  | 0, _, c => by rw [if_neg (by omega)]; rfl
  | n + 1, h, c => by
    show Memory.read (Memory.write (s.storeRegs a n) (a + n) _) c = _
    rw [Memory.read_write (State.wf_storeRegs hs a n (by omega)), State.read_storeRegs hs a n (by omega) c]
    by_cases hc : c = a + n
    · rw [if_pos hc, if_pos (by omega), hc, Nat.add_sub_cancel_left]
    · rw [if_neg hc]
      by_cases hin : a ≤ c ∧ c < a + n
      · rw [if_pos hin, if_pos (by omega)]
      · rw [if_neg hin, if_neg (by omega)]

/-- What `LDM`'s loop leaves in each register (R217). -/
theorem State.reg_loadRegs (s : State) (a : Nat) : ∀ n, n ≤ 16 → ∀ r : RegIx,
    (s.loadRegs a n).reg r = if r.toNat < n then s.M.read (a + r.toNat) else s.reg r
  | 0, _, r => by simp [State.loadRegs]
  | n + 1, h, r => by
    show ((s.loadRegs a n).setReg (BitVec.ofNat 4 n) _).reg r = _
    rw [State.reg_setReg, State.reg_loadRegs s a n (by omega) r]
    have hr := r.isLt
    have key : r = BitVec.ofNat 4 n ↔ r.toNat = n := by
      rw [← BitVec.toNat_inj, BitVec.toNat_ofNat, Nat.mod_eq_of_lt (by omega)]
    by_cases hn : r.toNat = n
    · rw [if_pos (key.mpr hn), if_pos (by omega), hn]
    · rw [if_neg (fun e => hn (key.mp e))]
      by_cases hl : r.toNat < n
      · rw [if_pos hl, if_pos (by omega)]
      · rw [if_neg hl, if_neg (by omega)]

/-- `LDM`'s loop changes nothing but data registers (R217). -/
theorem State.loadRegs_rest (s : State) (a : Nat) : ∀ n, ∃ v, s.loadRegs a n = { s with V := v }
  | 0 => ⟨s.V, rfl⟩
  | n + 1 => by
    obtain ⟨v, h⟩ := State.loadRegs_rest s a n
    exact ⟨v.set (BitVec.ofNat 4 n).toNat (s.M.read (a + n)) (BitVec.ofNat 4 n).isLt, by rw [State.loadRegs, h]; rfl⟩

/-! Address checks and faults -/

/-- An address is in memory when it is 0..4095 (R57). -/
theorem inMemory_iff (a : Int) : inMemory a = true ↔ 0 ≤ a ∧ a < 4096 := by
  cases a with
  | ofNat n =>
    show decide (n < Config.memSize) = true ↔ _
    rw [decide_eq_true_eq, Int.ofNat_eq_natCast, Config.memSize]; omega
  | negSucc n => simp only [inMemory, Bool.false_eq_true, false_iff]; omega

/-- `n` ascending addresses from `a` are all in memory, or the first one outside is `a` or 4096 (R58, R242). -/
theorem firstOutOfRange_addressesFrom (n : Nat) : ∀ a : Nat,
    firstOutOfRange (addressesFrom (a : Int) n) = if n = 0 ∨ a + n ≤ 4096 then none else some ((max a 4096 : Nat) : Int) := by
  induction n with
  | zero => intro a; simp [addressesFrom, firstOutOfRange]
  | succ n ih =>
    intro a
    have hm : inMemory (a : Int) = true ↔ a < 4096 := by rw [inMemory_iff]; omega
    simp only [addressesFrom, firstOutOfRange]
    by_cases ha : a < 4096
    · rw [if_pos (hm.mpr ha), show ((a : Int) + 1) = ((a + 1 : Nat) : Int) by push_cast; rfl, ih (a + 1)]
      by_cases hn : n = 0 ∨ a + 1 + n ≤ 4096
      · rw [if_pos hn, if_pos (by omega)]
      · rw [if_neg hn, if_neg (by omega), show max (a + 1) 4096 = max a 4096 by omega]
    · rw [if_neg (fun h => ha (hm.mp h)), if_neg (by omega), show max a 4096 = a by omega]

/-- The addresses of a pop are both in memory, or the first one outside is -1 or `sp - 1` (R58, R130). -/
theorem firstOutOfRange_popAddresses (s : State) :
    firstOutOfRange s.popAddresses =
      if 2 ≤ s.sp.toNat ∧ s.sp.toNat ≤ 0x1000 then none else some (if s.sp.toNat < 2 then -1 else (s.sp.toNat : Int) - 1) := by
  simp only [State.popAddresses, firstOutOfRange, inMemory_iff]
  split
  · split
    · rw [if_pos (by omega)]
    · rw [if_neg (by omega), if_pos (by omega)]
      congr 1; omega
  · rw [if_neg (by omega)]
    congr 1; split <;> omega

/-- A checked access answers a next state: the instruction's `MemoryFault`, or the state after its accesses (R119). -/
theorem checked_next (i : Instr) (addrs : List Int) (s t : State) :
    (∃ a, firstOutOfRange addrs = some a ∧ checked i addrs s t = .next (s.raiseMemoryFault (encode i) a)) ∨
    (firstOutOfRange addrs = none ∧ checked i addrs s t = .next t) := by
  unfold checked
  cases h : firstOutOfRange addrs with
  | none => exact .inr ⟨rfl, rfl⟩
  | some a => exact .inl ⟨a, rfl, rfl⟩

/-- What a checked access that answers `u` has done. -/
theorem checked_cases {i : Instr} {addrs : List Int} {s t u : State} (h : checked i addrs s t = .next u) :
    (∃ a, firstOutOfRange addrs = some a ∧ u = s.raiseMemoryFault (encode i) a) ∨ (firstOutOfRange addrs = none ∧ u = t) := by
  obtain ⟨a, h1, h2⟩ | ⟨h1, h2⟩ := checked_next i addrs s t <;> rw [h2] at h <;> cases h
  · exact .inl ⟨a, h1, rfl⟩
  · exact .inr ⟨h1, rfl⟩

/-- A checked access whose addresses are all in memory. -/
theorem checked_of_none {i : Instr} {addrs : List Int} {s t : State} (h : firstOutOfRange addrs = none) :
    checked i addrs s t = .next t := by simp only [checked, h]

/-- A checked access with an address outside memory. -/
theorem checked_of_some {i : Instr} {addrs : List Int} {s t : State} {a : Int} (h : firstOutOfRange addrs = some a) :
    checked i addrs s t = .next (s.raiseMemoryFault (encode i) a) := by simp only [checked, h]

/-- When `CALL`'s two addresses are in memory (R58). -/
theorem pushAddresses_ok (s : State) : firstOutOfRange s.pushAddresses = none ↔ s.sp.toNat ≤ 0x0FFE := by
  rw [State.pushAddresses, firstOutOfRange_addressesFrom]
  split <;> simp <;> omega

/-- When `RET`'s two addresses are in memory (R58). -/
theorem popAddresses_ok (s : State) : firstOutOfRange s.popAddresses = none ↔ 2 ≤ s.sp.toNat ∧ s.sp.toNat ≤ 0x1000 := by
  rw [firstOutOfRange_popAddresses]
  split <;> simp_all

/-- When the `n` addresses from `I` are in memory (R58). -/
theorem dataAddresses_ok (s : State) (n : Nat) :
    firstOutOfRange (s.dataAddresses n) = none ↔ n = 0 ∨ s.I.toNat + n ≤ 4096 := by
  rw [State.dataAddresses, firstOutOfRange_addressesFrom]
  split <;> simp_all

/-- When a fetch's two addresses are in memory (R111). -/
theorem fetchAddresses_ok (s : State) : firstOutOfRange s.fetchAddresses = none ↔ s.pc.toNat ≤ 0x0FFE := by
  rw [State.fetchAddresses, firstOutOfRange_addressesFrom]
  split <;> simp <;> omega

/-- A skip moves `pc` or changes nothing (R133). -/
theorem State.skipIf_eq (s : State) (c : Bool) : s.skipIf c = s.setPc (if c then s.pc + 2 else s.pc) := by
  cases c <;> rfl

end Sys2Proof.Machine
end

