-- ==== Sys2Proof/Laws/PerInstr.lean ====
section
/-!
SUPPORT. What is said of every instruction as syntax, one lemma per constructor. Family `TableRow`: the word the encoder
emits has the fixed bits the opcode table gives the instruction's row.
-/

namespace Sys2Proof.Laws.TableRow

/-- The mask of the instruction's row in the opcode table: its fixed bits. -/
def tableMask : Instr → Word
  | .cls => 0xFFFF#16
  | .ret => 0xFFFF#16
  | .jp _ => 0xF000#16
  | .call _ => 0xF000#16
  | .sei _ _ => 0xF000#16
  | .snei _ _ => 0xF000#16
  | .ser _ _ => 0xF000#16
  | .ldi _ _ => 0xF000#16
  | .addi _ _ => 0xF000#16
  | .mov _ _ => 0xF00F#16
  | .or _ _ => 0xF00F#16
  | .and _ _ => 0xF00F#16
  | .xor _ _ => 0xF00F#16
  | .add _ _ => 0xF00F#16
  | .sub _ _ => 0xF00F#16
  | .shr _ => 0xF00F#16
  | .subn _ _ => 0xF00F#16
  | .shl _ => 0xF00F#16
  | .sner _ _ => 0xF000#16
  | .lda _ => 0xF000#16
  | .jpr _ => 0xF000#16
  | .rnd _ _ => 0xF000#16
  | .drw _ _ _ => 0xF000#16
  | .skup _ => 0xF0FF#16
  | .skdn _ => 0xF0FF#16
  | .gdt _ => 0xF0FF#16
  | .wkey _ => 0xF0FF#16
  | .sdt _ => 0xF0FF#16
  | .sst _ => 0xF0FF#16
  | .adda _ => 0xF0FF#16
  | .fnt _ => 0xF0FF#16
  | .bcd _ => 0xF0FF#16
  | .stm _ => 0xF0FF#16
  | .ldm _ => 0xF0FF#16

/-- The value of the fixed bits in the instruction's row of the opcode table. -/
def tableMatch : Instr → Word
  | .cls => 0x00E0#16
  | .ret => 0x00EE#16
  | .jp _ => 0x1000#16
  | .call _ => 0x2000#16
  | .sei _ _ => 0x3000#16
  | .snei _ _ => 0x4000#16
  | .ser _ _ => 0x5000#16
  | .ldi _ _ => 0x6000#16
  | .addi _ _ => 0x7000#16
  | .mov _ _ => 0x8000#16
  | .or _ _ => 0x8001#16
  | .and _ _ => 0x8002#16
  | .xor _ _ => 0x8003#16
  | .add _ _ => 0x8004#16
  | .sub _ _ => 0x8005#16
  | .shr _ => 0x8006#16
  | .subn _ _ => 0x8007#16
  | .shl _ => 0x800E#16
  | .sner _ _ => 0x9000#16
  | .lda _ => 0xA000#16
  | .jpr _ => 0xB000#16
  | .rnd _ _ => 0xC000#16
  | .drw _ _ _ => 0xD000#16
  | .skup _ => 0xE09E#16
  | .skdn _ => 0xE0A1#16
  | .gdt _ => 0xF007#16
  | .wkey _ => 0xF00A#16
  | .sdt _ => 0xF015#16
  | .sst _ => 0xF018#16
  | .adda _ => 0xF01E#16
  | .fnt _ => 0xF029#16
  | .bcd _ => 0xF033#16
  | .stm _ => 0xF055#16
  | .ldm _ => 0xF065#16

/-- The fixed bits of the encoding are the table's. -/
def Statement (i : Instr) : Prop := encode i &&& tableMask i = tableMatch i

section Masks
variable (f : Nibble) (x y n : Nibble) (kk : Byte) (nnn : Imm12)

theorem address_mask : (f ++ nnn : Word) &&& 0xF000#16 = f ++ 0x000#12 := by
  rw [show 0xF000#16 = 0xF#4 ++ 0x000#12 by decide, BitVec.and_append, BitVec.and_zero]
  rw [show 0xF#4 = BitVec.allOnes 4 by decide, BitVec.and_allOnes]

theorem registerByte_family : (f ++ x ++ kk : Word) &&& 0xF000#16 = f ++ 0x0#4 ++ 0x00#8 := by
  rw [show 0xF000#16 = 0xF#4 ++ 0x0#4 ++ 0x00#8 by decide, BitVec.and_append, BitVec.and_append, BitVec.and_zero, BitVec.and_zero]
  rw [show 0xF#4 = BitVec.allOnes 4 by decide, BitVec.and_allOnes]

theorem registerByte_low : (f ++ x ++ kk : Word) &&& 0xF0FF#16 = f ++ 0x0#4 ++ kk := by
  rw [show 0xF0FF#16 = 0xF#4 ++ 0x0#4 ++ 0xFF#8 by decide, BitVec.and_append, BitVec.and_append, BitVec.and_zero]
  rw [show 0xF#4 = BitVec.allOnes 4 by decide, BitVec.and_allOnes, show 0xFF#8 = BitVec.allOnes 8 by decide, BitVec.and_allOnes]

theorem nibbles_family : (f ++ x ++ y ++ n : Word) &&& 0xF000#16 = f ++ 0x0#4 ++ 0x0#4 ++ 0x0#4 := by
  rw [show 0xF000#16 = 0xF#4 ++ 0x0#4 ++ 0x0#4 ++ 0x0#4 by decide, BitVec.and_append, BitVec.and_append, BitVec.and_append]
  simp only [BitVec.and_zero]
  rw [show 0xF#4 = BitVec.allOnes 4 by decide, BitVec.and_allOnes]

theorem nibbles_family_n : (f ++ x ++ y ++ n : Word) &&& 0xF00F#16 = f ++ 0x0#4 ++ 0x0#4 ++ n := by
  rw [show 0xF00F#16 = 0xF#4 ++ 0x0#4 ++ 0x0#4 ++ 0xF#4 by decide, BitVec.and_append, BitVec.and_append, BitVec.and_append]
  simp only [BitVec.and_zero]
  rw [show 0xF#4 = BitVec.allOnes 4 by decide, BitVec.and_allOnes, BitVec.and_allOnes]

end Masks

theorem cls : Statement .cls := rfl
theorem ret : Statement .ret := rfl
theorem jp (nnn : Imm12) : Statement (.jp nnn) := (address_mask _ nnn).trans rfl
theorem call (nnn : Imm12) : Statement (.call nnn) := (address_mask _ nnn).trans rfl
theorem sei (x : RegIx) (kk : Byte) : Statement (.sei x kk) := (registerByte_family _ x kk).trans rfl
theorem snei (x : RegIx) (kk : Byte) : Statement (.snei x kk) := (registerByte_family _ x kk).trans rfl
theorem ser (x y : RegIx) : Statement (.ser x y) := (nibbles_family _ x y _).trans rfl
theorem ldi (x : RegIx) (kk : Byte) : Statement (.ldi x kk) := (registerByte_family _ x kk).trans rfl
theorem addi (x : RegIx) (kk : Byte) : Statement (.addi x kk) := (registerByte_family _ x kk).trans rfl
theorem mov (x y : RegIx) : Statement (.mov x y) := (nibbles_family_n _ x y _).trans rfl
theorem or (x y : RegIx) : Statement (.or x y) := (nibbles_family_n _ x y _).trans rfl
theorem and (x y : RegIx) : Statement (.and x y) := (nibbles_family_n _ x y _).trans rfl
theorem xor (x y : RegIx) : Statement (.xor x y) := (nibbles_family_n _ x y _).trans rfl
theorem add (x y : RegIx) : Statement (.add x y) := (nibbles_family_n _ x y _).trans rfl
theorem sub (x y : RegIx) : Statement (.sub x y) := (nibbles_family_n _ x y _).trans rfl
theorem shr (x : RegIx) : Statement (.shr x) := (nibbles_family_n _ x _ _).trans rfl
theorem subn (x y : RegIx) : Statement (.subn x y) := (nibbles_family_n _ x y _).trans rfl
theorem shl (x : RegIx) : Statement (.shl x) := (nibbles_family_n _ x _ _).trans rfl
theorem sner (x y : RegIx) : Statement (.sner x y) := (nibbles_family _ x y _).trans rfl
theorem lda (nnn : Imm12) : Statement (.lda nnn) := (address_mask _ nnn).trans rfl
theorem jpr (nnn : Imm12) : Statement (.jpr nnn) := (address_mask _ nnn).trans rfl
theorem rnd (x : RegIx) (kk : Byte) : Statement (.rnd x kk) := (registerByte_family _ x kk).trans rfl
theorem drw (x y : RegIx) (n : Nibble) : Statement (.drw x y n) := (nibbles_family _ x y n).trans rfl
theorem skup (x : RegIx) : Statement (.skup x) := (registerByte_low _ x _).trans rfl
theorem skdn (x : RegIx) : Statement (.skdn x) := (registerByte_low _ x _).trans rfl
theorem gdt (x : RegIx) : Statement (.gdt x) := (registerByte_low _ x _).trans rfl
theorem wkey (x : RegIx) : Statement (.wkey x) := (registerByte_low _ x _).trans rfl
theorem sdt (x : RegIx) : Statement (.sdt x) := (registerByte_low _ x _).trans rfl
theorem sst (x : RegIx) : Statement (.sst x) := (registerByte_low _ x _).trans rfl
theorem adda (x : RegIx) : Statement (.adda x) := (registerByte_low _ x _).trans rfl
theorem fnt (x : RegIx) : Statement (.fnt x) := (registerByte_low _ x _).trans rfl
theorem bcd (x : RegIx) : Statement (.bcd x) := (registerByte_low _ x _).trans rfl
theorem stm (x : RegIx) : Statement (.stm x) := (registerByte_low _ x _).trans rfl
theorem ldm (x : RegIx) : Statement (.ldm x) := (registerByte_low _ x _).trans rfl

end Sys2Proof.Laws.TableRow
end

