-- ==== Sys2Proof/Laws/Step.lean ====
section
/-!
SUPPORT. What a step can do, said once (40_fetch_execute.md R115): the provers derive every statement about `step` from
these.
-/

namespace Sys2Proof.Machine

/-- The three ways fetch and decode go (R110, R111, R241). -/
theorem State.fetchDecode_cases (s : State) :
    (∃ a, firstOutOfRange s.fetchAddresses = some a ∧ s.fetchDecode = .error (s.raiseMemoryFault 0x0000 a)) ∨
    (∃ r, firstOutOfRange s.fetchAddresses = none ∧ decode s.fetchWord = .error r ∧
      s.fetchDecode = .error (s.advancePc.raiseUnknownOpcode s.fetchWord)) ∨
    (∃ i, firstOutOfRange s.fetchAddresses = none ∧ decode s.fetchWord = .ok i ∧ s.fetchDecode = .ok (i, s.advancePc)) := by
  cases h : firstOutOfRange s.fetchAddresses with
  | some a => exact .inl ⟨a, rfl, by simp only [State.fetchDecode, h]⟩
  | none =>
    cases hd : decode s.fetchWord with
    | error r => exact .inr (.inl ⟨r, rfl, rfl, by simp only [State.fetchDecode, h, hd]⟩)
    | ok i => exact .inr (.inr ⟨i, rfl, rfl, by simp only [State.fetchDecode, h, hd]⟩)

/-- The step where the reset input moves (R281). -/
theorem step_of_reset {s : State} (h : s.nextEvent = .reset) : step s = .next s.turn.assertReset := by
  simp only [step, h]

/-- The step where the tick moves (R251). -/
theorem step_of_tick {s : State} (h : s.nextEvent = .tick) : step s = .next s.turn.tick := by
  simp only [step, h]

/-- The host's `load(addr, byte)` (R260). -/
theorem step_of_hostWrite {s : State} {a : MemAddr} {b : Byte} (h : s.nextEvent = .load a b) :
    step s = hostWrite a b s.turn := by
  simp only [step, h]

/-- The host's `release` (R260). -/
theorem step_of_release {s : State} (h : s.nextEvent = .release) : step s = hostRelease s.turn := by
  simp only [step, h]

/-- The core is held exactly in phase `LOAD` (R115). -/
theorem State.held_iff (s : State) : s.held = true ↔ s.PHASE = .load := by
  unfold State.held; cases s.PHASE <;> simp

/-- What the host's `load(addr, byte)` can do (R67, R260). -/
theorem hostWrite_cases (a : MemAddr) (b : Byte) (s : State) :
    (s.PHASE = .load ∧ hostWrite a b s = .next (s.store a.toNat b)) ∨ (s.PHASE ≠ .load ∧ hostWrite a b s = .refused .hostAccess) := by
  unfold hostWrite
  split
  · exact .inl ⟨s.held_iff.mp ‹_›, rfl⟩
  · exact .inr ⟨fun h => ‹¬ _› (s.held_iff.mpr h), rfl⟩

/-- What the host's `release` can do (R260, R282). -/
theorem hostRelease_cases (s : State) :
    (s.PHASE = .load ∧ hostRelease s = .next (s.setPhase .run)) ∨ (s.PHASE ≠ .load ∧ hostRelease s = .refused .hostAccess) := by
  unfold hostRelease
  split
  · exact .inl ⟨s.held_iff.mp ‹_›, rfl⟩
  · exact .inr ⟨fun h => ‹¬ _› (s.held_iff.mpr h), rfl⟩

/-- The engine's step in `LOAD` is the host's load (R282). -/
theorem step_of_load {s : State} (h : s.nextEvent = .engine) (hp : s.PHASE = .load) : step s = hostLoad s.turn := by
  simp only [step, h, hp]

/-- The engine's step in `WAIT_KEY(x)` is the key-wait step (R184). -/
theorem step_of_waitKey {s : State} {x : RegIx} (h : s.nextEvent = .engine) (hp : s.PHASE = .waitKey x) :
    step s = keyWait x s.turn := by
  simp only [step, h, hp]

/-- In `HALTED` the engine has no step (R115, R245). -/
theorem step_of_halted {s : State} (h : s.nextEvent = .engine) (hp : s.PHASE = .halted) :
    step s = .fault (.halted s.FAULT) := by
  simp only [step, h, hp]

/-- The engine's step in `RUN` that stops at the fetch or at decode (R111, R241). -/
theorem step_of_run_error {s t : State} (h : s.nextEvent = .engine) (hp : s.PHASE = .run)
    (hf : s.turn.fetchDecode = .error t) : step s = .next t := by
  simp only [step, h, hp, hf]

/-- The engine's step in `RUN` runs the decoded instruction (R110, R113). -/
theorem step_of_run_ok {s t : State} {i : Instr} (h : s.nextEvent = .engine) (hp : s.PHASE = .run)
    (hf : s.turn.fetchDecode = .ok (i, t)) : step s = exec i t := by
  simp only [step, h, hp, hf]

/-- Everything a step that answers a next state can have done: the reset input, a tick, the host's byte, release or whole
load, a fetch fault, an illegal word, the handler of the decoded instruction, or the key-wait step. -/
theorem step_cases {s t : State} (h : step s = .next t) :
    (s.nextEvent = .reset ∧ t = s.turn.assertReset) ∨
    (s.nextEvent = .tick ∧ t = s.turn.tick) ∨
    (s.PHASE = .load ∧ ∃ a b, s.nextEvent = .load a b ∧ t = s.turn.store a.toNat b) ∨
    (s.PHASE = .load ∧ s.nextEvent = .release ∧ t = s.turn.setPhase .run) ∨
    (s.PHASE = .load ∧ hostLoad s.turn = .next t) ∨
    (s.PHASE = .run ∧ ∃ a, firstOutOfRange s.turn.fetchAddresses = some a ∧ t = s.turn.raiseMemoryFault 0x0000 a) ∨
    (s.PHASE = .run ∧ ∃ r, decode s.turn.fetchWord = .error r ∧ t = s.turn.advancePc.raiseUnknownOpcode s.turn.fetchWord) ∨
    (s.PHASE = .run ∧ ∃ i, decode s.turn.fetchWord = .ok i ∧ exec i s.turn.advancePc = .next t) ∨
    (∃ x, s.PHASE = .waitKey x ∧ keyWait x s.turn = .next t) := by
  cases he : s.nextEvent with
  | reset => rw [step_of_reset he] at h; cases h; exact .inl ⟨rfl, rfl⟩
  | tick => rw [step_of_tick he] at h; cases h; exact .inr (.inl ⟨rfl, rfl⟩)
  | load a b =>
    rw [step_of_hostWrite he] at h
    obtain ⟨hp, hw⟩ | ⟨_, hw⟩ := hostWrite_cases a b s.turn <;> rw [hw] at h <;> cases h
    exact .inr (.inr (.inl ⟨hp, a, b, rfl, rfl⟩))
  | release =>
    rw [step_of_release he] at h
    obtain ⟨hp, hw⟩ | ⟨_, hw⟩ := hostRelease_cases s.turn <;> rw [hw] at h <;> cases h
    exact .inr (.inr (.inr (.inl ⟨hp, rfl, rfl⟩)))
  | engine =>
    cases hp : s.PHASE with
    | load => exact .inr (.inr (.inr (.inr (.inl ⟨rfl, step_of_load he hp ▸ h⟩))))
    | halted => rw [step_of_halted he hp] at h; cases h
    | waitKey x => exact .inr (.inr (.inr (.inr (.inr (.inr (.inr (.inr ⟨x, rfl, step_of_waitKey he hp ▸ h⟩)))))))
    | run =>
      obtain ⟨a, ha, hf⟩ | ⟨r, _, hd, hf⟩ | ⟨i, _, hd, hf⟩ := s.turn.fetchDecode_cases
      · rw [step_of_run_error he hp hf] at h; cases h
        exact .inr (.inr (.inr (.inr (.inr (.inl ⟨rfl, a, ha, rfl⟩)))))
      · rw [step_of_run_error he hp hf] at h; cases h
        exact .inr (.inr (.inr (.inr (.inr (.inr (.inl ⟨rfl, r, hd, rfl⟩))))))
      · exact .inr (.inr (.inr (.inr (.inr (.inr (.inr (.inl ⟨rfl, i, hd, step_of_run_ok he hp hf ▸ h⟩)))))))

end Sys2Proof.Machine
end

