-- ==== Sys2Proof/Tests/Slice0.lean ====
section
/-!
SUPPORT. Tests of one step each, with expected results from 95_test_vectors.md (T numbers) and the rules' examples; the
smoke test of the well-formedness checks; and a witness for the hypotheses of every obligation that has any.
-/

namespace Sys2Proof.Tests

open Sys2Proof.Machine

/-- The outcome is a next state with this property. -/
def isNext (o : Host.Outcome State Fault Refusal) (p : State → Bool) : Bool :=
  match o with
  | .next t => p t
  | .fault _ => false
  | .refused _ => false

/-- The outcome is a refusal. -/
def isRefused (o : Host.Outcome State Fault Refusal) (r : Refusal) : Bool :=
  match o with
  | .next _ => false
  | .fault _ => false
  | .refused r' => decide (r' = r)

/-- The outcome is a fault. -/
def isFault (o : Host.Outcome State Fault Refusal) (f : Fault) : Bool :=
  match o with
  | .next _ => false
  | .fault f' => decide (f' = f)
  | .refused _ => false

/-- What `isNext` says. -/
theorem exists_next {o : Host.Outcome State Fault Refusal} {p : State → Bool} (h : isNext o p = true) :
    ∃ t, o = .next t ∧ p t = true := by
  cases o with
  | next t => exact ⟨t, rfl, h⟩
  | fault _ => cases h
  | refused _ => cases h

/-- The reset state, released, with the engine to move. -/
def running : State := (State.reset.setPhase .run).engineNext

/-- The reset state in another phase, with another agent to move. -/
def moving (p : Phase) (e : Event) : State := (State.reset.setPhase p).setEnv { Env.reset with schedule := [e] }

/-- The step of a word fetched at `pc`. -/
def after (s : State) (op : Word) (p : State → Bool) : Bool := isNext (step (s.withFetchWord 16 op.toNat)) p

/-- The fault record is this one. -/
def recorded (t : State) (c : Cause) (instr pc addr : Word) : Bool :=
  decide (t.PHASE = .halted) && decide (t.FAULT = some { cause := c, instr := instr, pc := pc, addr := addr })

/-- The word decodes to this instruction. -/
def decodesTo (op : Word) (i : Instr) : Bool :=
  match decode op with
  | .ok j => decide (j = i)
  | .error _ => false

/-- The word is illegal. -/
def illegal (op : Word) : Bool :=
  match decode op with
  | .ok _ => false
  | .error _ => true

/-! Decoding: words written out from the table of 30_encoding.md R95, a word for every constructor -/

/-- T20, T21, T23, T24 and the other words of families 0 to 7. -/
theorem test_decode_families_0_to_7 :
    decodesTo 0b0000000011100000 .cls && decodesTo 0b0000000011101110 .ret && decodesTo 0b0001101010111100 (.jp 0xABC) &&
    decodesTo 0b0010001010110000 (.call 0x2B0) && decodesTo 0b0011101001111111 (.sei 0xA 0x7F) &&
    decodesTo 0b0100001101000010 (.snei 0x3 0x42) && decodesTo 0b0101000100100000 (.ser 0x1 0x2) &&
    decodesTo 0b0101000100101111 (.ser 0x1 0x2) && decodesTo 0b0110000000000101 (.ldi 0x0 0x05) &&
    decodesTo 0b0111000000000011 (.addi 0x0 0x03) = true := by decide

/-- T27, T28 and the other words of family 8. -/
theorem test_decode_family_8 :
    decodesTo 0b1000000100100000 (.mov 0x1 0x2) && decodesTo 0b1000000100100001 (.or 0x1 0x2) &&
    decodesTo 0b1000000100100010 (.and 0x1 0x2) && decodesTo 0b1000000100100011 (.xor 0x1 0x2) &&
    decodesTo 0b1000101010110100 (.add 0xA 0xB) && decodesTo 0b1000000100100101 (.sub 0x1 0x2) &&
    decodesTo 0b1000000100000110 (.shr 0x1) && decodesTo 0b1000000111110110 (.shr 0x1) &&
    decodesTo 0b1000000100100111 (.subn 0x1 0x2) && decodesTo 0b1000000100001110 (.shl 0x1) &&
    decodesTo 0b1000000111111110 (.shl 0x1) = true := by decide

/-- T26, T30, T31 and the other words of families 9 to E. -/
theorem test_decode_families_9_to_E :
    decodesTo 0b1001101010110000 (.sner 0xA 0xB) && decodesTo 0b1001101010110111 (.sner 0xA 0xB) &&
    decodesTo 0b1010001100000000 (.lda 0x300) && decodesTo 0b1011000000000010 (.jpr 0x002) &&
    decodesTo 0b1100001100001111 (.rnd 0x3 0x0F) && decodesTo 0b1101000100100101 (.drw 0x1 0x2 0x5) &&
    decodesTo 0b1110001010011110 (.skup 0x2) && decodesTo 0b1110001010100001 (.skdn 0x2) = true := by decide

/-- T33. -/
theorem test_decode_family_F :
    decodesTo 0b1111000000000111 (.gdt 0x0) && decodesTo 0b1111000100001010 (.wkey 0x1) &&
    decodesTo 0b1111001000010101 (.sdt 0x2) && decodesTo 0b1111001100011000 (.sst 0x3) &&
    decodesTo 0b1111010000011110 (.adda 0x4) && decodesTo 0b1111010100101001 (.fnt 0x5) &&
    decodesTo 0b1111011000110011 (.bcd 0x6) && decodesTo 0b1111011101010101 (.stm 0x7) &&
    decodesTo 0b1111100001100101 (.ldm 0x8) = true := by decide

/-- T22, T29, T32, T34. -/
theorem test_illegal_words :
    [0x0000, 0x00E1, 0x00FE, 0x01E0, 0x0FFF, 0x0123, 0x8128, 0x8129, 0x812A, 0x812B, 0x812C, 0x812D, 0x812F, 0xE200, 0xE29F,
      0xE2A0, 0xEFFF, 0xF000, 0xF075, 0xF085, 0xF01F, 0xF030, 0xFFFF].all illegal = true := by decide

/-- The encoder's words (R95), ignored bits zero (R90). -/
theorem test_encode :
    encode (.ser 0x1 0x2) = 0x5120 ∧ encode (.shr 0x1) = 0x8106 ∧ encode (.shl 0xF) = 0x8F0E ∧
    encode (.drw 0x1 0x2 0x5) = 0xD125 ∧ encode (.ldm 0x8) = 0xF865 ∧ encodeBytes (.call 0x2B0) = [0x22, 0xB0] := by decide

/-- T11: the bytes 60 05, the high one first, are `LDI V0, 5`; a lone byte is no instruction. -/
theorem test_decode_bytes :
    (match decodeBytes [0x60, 0x05, 0x70] with | .ok r => decide (r = (.ldi 0x0 0x05, [0x70])) | .error _ => false) = true ∧
    (match decodeBytes [0x60] with | .ok _ => false | .error r => decide (r = .truncated)) = true ∧
    decodeTableWord 16 0x6005 = some (.ldi 0x0 0x05) ∧ decodeTableWord 16 0x0000 = none := by decide

/-! Well-formedness: operands cannot be out of range; images can -/

/-- An image one byte too long is refused (T186 and R282), a full one is not (T187). -/
theorem test_oversize_images_are_refused :
    fontFits (List.replicate 4097 0) = false ∧ fontFits (List.replicate 4096 0) = true ∧
    romFits (List.replicate 3585 0) = false ∧ romFits (List.replicate 3584 0) = true := by
  unfold fontFits romFits
  rw [List.length_replicate, List.length_replicate, List.length_replicate, List.length_replicate]
  decide

/-- The largest operands are well-formed (R83); a fifth bit of a register index does not exist. -/
theorem test_largest_operands_are_well_formed :
    Instr.wellFormed (.drw 0xF 0xF 0xF) = true ∧ Instr.wellFormed (.jp 0xFFF) = true ∧ Instr.wellFormed (.ldi 0xF 0xFF) = true ∧
    (0x1F : RegIx) = 0xF := by decide

/-! Control flow -/

/-- T40. -/
theorem test_call : after (running.setPc 0x2A4) 0x22B0 (fun t =>
    t.M.read 0x52 == 0xA6 && t.M.read 0x53 == 0x02 && t.sp == 0x54 && t.pc == 0x2B0) = true := by decide

/-- T45, and the same address with `sp` = 0FFF: no byte written, `sp` unchanged. -/
theorem test_call_full_stack :
    after (running.setSp 0x1000) 0x2300 (fun t => recorded t .memoryFault 0x2300 0x202 0x1000 && t.sp == 0x1000) &&
    after (running.setSp 0xFFF) 0x2300 (fun t => recorded t .memoryFault 0x2300 0x202 0x1000 && t.M.read 0xFFF == 0) = true := by
  decide

/-- T41, T42. -/
theorem test_ret :
    after (((running.store 0x52 0xA6).store 0x53 0x02).setSp 0x54) 0x00EE (fun t =>
      t.pc == 0x2A6 && t.sp == 0x52 && t.M.read 0x52 == 0xA6) &&
    after ((running.store 0x50 0x34).store 0x51 0x12) 0x00EE (fun t => t.pc == 0x1234 && t.sp == 0x50) = true := by decide

/-- T44: `sp` = 0 and `sp` = 1. -/
theorem test_ret_empty_memory :
    after (running.setSp 0) 0x00EE (fun t => recorded t .memoryFault 0x00EE 0x202 0xFFFF && t.sp == 0) &&
    after (running.setSp 1) 0x00EE (fun t => recorded t .memoryFault 0x00EE 0x202 0xFFFF && t.sp == 1) = true := by decide

/-- T47, T49. -/
theorem test_jp : after running 0x1ABC (fun t => t.pc == 0xABC) && after running 0x1201 (fun t => t.pc == 0x201) = true := by decide

/-- T51, T52, T61. -/
theorem test_sei :
    after (running.setReg 3 0x42) 0x3342 (fun t => t.pc == 0x204) && after (running.setReg 3 0x41) 0x3342 (fun t => t.pc == 0x202) &&
    after ((running.setReg 3 0x42).setPc 0xFFE) 0x3342 (fun t => t.pc == 0x1002) = true := by decide

/-- T53, T54. -/
theorem test_snei :
    after (running.setReg 3 0x42) 0x4342 (fun t => t.pc == 0x202) &&
    after (running.setReg 3 0x41) 0x4342 (fun t => t.pc == 0x204) = true := by decide

/-- T55, T56, T57. -/
theorem test_ser :
    after ((running.setReg 1 7).setReg 2 7) 0x512F (fun t => t.pc == 0x204) &&
    after ((running.setReg 1 7).setReg 2 8) 0x5120 (fun t => t.pc == 0x202) &&
    after running 0x5AA0 (fun t => t.pc == 0x204) = true := by decide

/-- T56, T57. -/
theorem test_sner :
    after ((running.setReg 1 7).setReg 2 8) 0x9120 (fun t => t.pc == 0x204) && after running 0x9AA0 (fun t => t.pc == 0x202) = true := by
  decide

/-- T58, T59. -/
theorem test_jpr :
    after ((running.setReg 0 0x04).setPc 0x202) 0xB002 (fun t => t.pc == 0x20A) &&
    after ((running.setReg 0 0xFF).setPc 0xFFE) 0xBFFF (fun t => t.pc == 0x20FE) = true := by decide

/-! Load and ALU -/

/-- T70, T71. -/
theorem test_ldi :
    after running 0x61AB (fun t => t.reg 1 == 0xAB && t.pc == 0x202) && after running 0x6F55 (fun t => t.reg 0xF == 0x55) = true := by
  decide

/-- T72, T73. -/
theorem test_addi :
    after (running.setReg 1 0xFF) 0x7102 (fun t => t.reg 1 == 0x01 && t.reg 0xF == 0x00) &&
    after (running.setReg 0xF 0x01) 0x7FFF (fun t => t.reg 0xF == 0x00) = true := by decide

/-- T74. -/
theorem test_mov : after ((running.setReg 1 0x11).setReg 2 0x22) 0x8120 (fun t => t.reg 1 == 0x22 && t.reg 2 == 0x22) = true := by
  decide

/-- The start of T75. -/
def logicStart : State := ((running.setReg 1 0xF0).setReg 2 0x3C).setReg 0xF 0x77

/-- T75. -/
theorem test_or : after logicStart 0x8121 (fun t => t.reg 1 == 0xFC && t.reg 0xF == 0x77) = true := by decide

/-- T75. -/
theorem test_and : after logicStart 0x8122 (fun t => t.reg 1 == 0x30 && t.reg 0xF == 0x77) = true := by decide

/-- T75, T76. -/
theorem test_xor :
    after logicStart 0x8123 (fun t => t.reg 1 == 0xCC && t.reg 0xF == 0x77) &&
    after (running.setReg 1 0x5A) 0x8113 (fun t => t.reg 1 == 0x00) = true := by decide

/-- T77, T78, T81. -/
theorem test_add :
    after ((running.setReg 1 0xFF).setReg 2 0x01) 0x8124 (fun t => t.reg 1 == 0x00 && t.reg 0xF == 1) &&
    after ((running.setReg 1 0x80).setReg 2 0x7F) 0x8124 (fun t => t.reg 1 == 0xFF && t.reg 0xF == 0) &&
    after (running.setReg 1 0x90) 0x8114 (fun t => t.reg 1 == 0x20 && t.reg 0xF == 1) = true := by decide

/-- T82, T83, T84. -/
theorem test_add_flag_operand :
    after ((running.setReg 0xF 0xF0).setReg 1 0x20) 0x8F14 (fun t => t.reg 0xF == 1) &&
    after ((running.setReg 0xF 0x10).setReg 1 0x20) 0x8F14 (fun t => t.reg 0xF == 0) &&
    after ((running.setReg 1 0x10).setReg 0xF 0xF5) 0x81F4 (fun t => t.reg 1 == 0x05 && t.reg 0xF == 1) = true := by decide

/-- T85, T86, T87, T88. -/
theorem test_sub :
    after ((running.setReg 1 0x10).setReg 2 0x20) 0x8125 (fun t => t.reg 1 == 0xF0 && t.reg 0xF == 0) &&
    after ((running.setReg 1 0x20).setReg 2 0x10) 0x8125 (fun t => t.reg 1 == 0x10 && t.reg 0xF == 1) &&
    after ((running.setReg 1 0x33).setReg 2 0x33) 0x8125 (fun t => t.reg 1 == 0x00 && t.reg 0xF == 1) &&
    after (running.setReg 2 0xFF) 0x8125 (fun t => t.reg 1 == 0x01 && t.reg 0xF == 0) = true := by decide

/-- T90, T91. -/
theorem test_sub_flag_operand :
    after ((running.setReg 1 0x05).setReg 0xF 0x06) 0x81F5 (fun t => t.reg 1 == 0xFF && t.reg 0xF == 0) &&
    after ((running.setReg 0xF 0x09).setReg 1 0x03) 0x8F15 (fun t => t.reg 0xF == 1) = true := by decide

/-- T92, T93, T94, T95. -/
theorem test_subn :
    after ((running.setReg 1 0x10).setReg 2 0x20) 0x8127 (fun t => t.reg 1 == 0x10 && t.reg 0xF == 1) &&
    after ((running.setReg 1 0x20).setReg 2 0x10) 0x8127 (fun t => t.reg 1 == 0xF0 && t.reg 0xF == 0) &&
    after (running.setReg 1 0xFF) 0x8127 (fun t => t.reg 1 == 0x01 && t.reg 0xF == 0) &&
    after ((running.setReg 1 0x33).setReg 2 0x33) 0x8127 (fun t => t.reg 1 == 0x00 && t.reg 0xF == 1) = true := by decide

/-- T96, T97, T99. -/
theorem test_shr :
    after (running.setReg 1 0x05) 0x8106 (fun t => t.reg 1 == 0x02 && t.reg 0xF == 1) &&
    after (running.setReg 1 0x04) 0x8106 (fun t => t.reg 1 == 0x02 && t.reg 0xF == 0) &&
    after ((running.setReg 1 0x01).setReg 2 0xEE) 0x8126 (fun t => t.reg 1 == 0x00 && t.reg 0xF == 1 && t.reg 2 == 0xEE) = true := by
  decide

/-- T100. -/
theorem test_shr_flag :
    after (running.setReg 0xF 0xFF) 0x8F06 (fun t => t.reg 0xF == 0) &&
    after (running.setReg 0xF 0xFE) 0x8F06 (fun t => t.reg 0xF == 0) = true := by decide

/-- T101, T102. -/
theorem test_shl :
    after (running.setReg 1 0x81) 0x810E (fun t => t.reg 1 == 0x02 && t.reg 0xF == 1) &&
    after (running.setReg 1 0x40) 0x810E (fun t => t.reg 1 == 0x80 && t.reg 0xF == 0) = true := by decide

/-- T105. -/
theorem test_shl_flag :
    after (running.setReg 0xF 0x80) 0x8F0E (fun t => t.reg 0xF == 2) &&
    after (running.setReg 0xF 0x7F) 0x8F0E (fun t => t.reg 0xF == 0) = true := by decide

/-- T107. -/
theorem test_lda : after running 0xAFFF (fun t => t.I == 0x0FFF) = true := by decide

/-- A random source that holds one byte, A7. -/
def oneRandom : State := running.setEnv { running.env with random := [0xA7] }

/-- T108, T109. -/
theorem test_rnd :
    after oneRandom 0xC30F (fun t => t.reg 3 == 0x07 && t.env.random == []) && after oneRandom 0xC300 (fun t => t.reg 3 == 0x00) &&
    after oneRandom 0xC3FF (fun t => t.reg 3 == 0xA7) = true := by decide

/-! Display and input -/

/-- One sprite row at 0300, to be drawn at a position. -/
def sprite (row : Byte) (x y : Byte) : State := (((running.setI 0x300).store 0x300 row).setReg 1 x).setReg 2 y

/-- The display with some pixels lit. -/
def lit (s : State) (ps : List Nat) : State := s.setDisplay { s.env.display with lit := ps }

/-- A display narrower than a sprite. -/
def small (s : State) : State := s.setDisplay { width := 4, height := 1, lit := [] }

/-- T120. -/
theorem test_cls : after (lit (running.setReg 0xF 1) [0, 65]) 0x00E0 (fun t => t.env.display.lit == [] && t.reg 0xF == 1) = true := by
  decide

/-- T121, T123, T124: the leftmost pixel is bit 7, and both coordinates wrap. -/
theorem test_drw_wraps :
    after (sprite 0xFF 0 0) 0xD121 (fun t => t.env.display.lit == [0, 1, 2, 3, 4, 5, 6, 7] && t.reg 0xF == 0) &&
    after (sprite 0xC0 63 0) 0xD121 (fun t => t.env.display.lit == [0, 63] && t.reg 0xF == 0) &&
    after ((sprite 0x80 0 31).store 0x301 0x80) 0xD122 (fun t => t.env.display.lit == [0, 31 * 64] && t.reg 0xF == 0) = true := by
  decide

/-- T122, T126, T128, T129: collision, a 0 bit over a lit pixel, no rows, rows outside memory; and, by hand from R187's loop,
a row that meets itself on a display of width 4. -/
theorem test_drw_collision :
    after (lit (sprite 0xFF 0 0) [0, 1, 2, 3, 4, 5, 6, 7]) 0xD121 (fun t => t.env.display.lit == [] && t.reg 0xF == 1) &&
    after (lit (sprite 0x40 0 0) [0]) 0xD121 (fun t => t.env.display.lit == [0, 1] && t.reg 0xF == 0) &&
    after ((running.setI 0x1234).setReg 0xF 1) 0xD120 (fun t => t.PHASE == .run && t.reg 0xF == 0) &&
    after ((running.setI 0xFFE).setReg 0xF 1) 0xD123 (fun t =>
      recorded t .memoryFault 0xD123 0x202 0x1000 && t.reg 0xF == 1) &&
    after (small (sprite 0x89 0 0)) 0xD121 (fun t => t.env.display.lit == [3] && t.reg 0xF == 1) = true := by decide

/-- Register 2 names a key, and the Input Adapter will answer. -/
def key (v : Byte) (p : Bool) : State := (running.setReg 2 v).setEnv { running.env with pressed := [p] }

/-- T132, T133, T134. -/
theorem test_skup :
    after (key 0x0A false) 0xE29E (fun t => t.pc == 0x204) && after (key 0x0A true) 0xE29E (fun t => t.pc == 0x202) &&
    isRefused (step ((key 0x10 true).withFetchWord 16 0xE29E)) (.keyIndex 0x10) = true := by decide

/-- T132, T133, T134. -/
theorem test_skdn :
    after (key 0x0A false) 0xE2A1 (fun t => t.pc == 0x202) && after (key 0x0A true) 0xE2A1 (fun t => t.pc == 0x204) &&
    isRefused (step ((key 0x10 true).withFetchWord 16 0xE2A1)) (.keyIndex 0x10) = true := by decide

/-- The handler of `WKEY` enters the wait (R184). -/
theorem test_wkey : after running 0xF30A (fun t => t.PHASE == .waitKey 3 && t.pc == 0x202 && t.reg 3 == 0) = true := by decide

/-- A wait of V3, with the Input Adapter's answer. -/
def waiting (e : Event) (a : KeyAnswer) : State :=
  ((State.reset.setPhase (.waitKey 3)).setDT 2).setEnv { Env.reset with schedule := [e], current := [a] }

/-- T135, T136: the key-wait step waits on, or takes the key. -/
theorem test_key_wait :
    isNext (step (waiting .engine (.mapped 7))) (fun t => t.reg 3 == 0x07 && t.PHASE == .run && t.DT == 2) &&
    isNext (step (waiting .engine .none)) (fun t => t.reg 3 == 0x00 && t.PHASE == .waitKey 3) &&
    isNext (step (waiting .tick (.mapped 7))) (fun t => t.DT == 1 && t.PHASE == .waitKey 3) = true := by decide

/-! Timers, index and memory transfers -/

/-- T150. -/
theorem test_gdt : after (running.setDT 0x3C) 0xF207 (fun t => t.reg 2 == 0x3C && t.DT == 0x3C) = true := by decide

/-- T151. -/
theorem test_sdt : after (running.setReg 2 0x3C) 0xF215 (fun t => t.DT == 0x3C && t.ST == 0) = true := by decide

/-- T152. -/
theorem test_sst : after (running.setReg 2 0x3C) 0xF218 (fun t => t.ST == 0x3C && t.DT == 0) = true := by decide

/-- T157, T158. -/
theorem test_adda :
    after ((running.setI 0x0FFF).setReg 1 0xFF) 0xF11E (fun t => t.I == 0x10FE && t.reg 0xF == 0) &&
    after ((running.setI 0xFFFF).setReg 1 0x01) 0xF11E (fun t => t.I == 0x0000) = true := by decide

/-- T159, T160. -/
theorem test_fnt :
    after (running.setReg 5 0x0A) 0xF529 (fun t => t.I == 0x000A) && after (running.setReg 5 0xFF) 0xF529 (fun t => t.I == 0x00FF) = true := by
  decide

/-- T5, T162, T164. -/
theorem test_bcd :
    after ((running.setI 0x300).setReg 3 0xFF) 0xF333 (fun t => t.M.readAll 0x300 3 == [0x02, 0x05, 0x05] && t.I == 0x300) &&
    after ((running.setI 0xFFD).setReg 3 0x7B) 0xF333 (fun t => t.M.readAll 0xFFD 3 == [0x01, 0x02, 0x03]) = true := by decide

/-- T165, T171. -/
theorem test_bcd_faults :
    after ((running.setI 0xFFE).setReg 3 0x7B) 0xF333 (fun t =>
      recorded t .memoryFault 0xF333 0x202 0x1000 && t.M.readAll 0xFFE 2 == [0, 0]) &&
    after (running.setI 0x10FE) 0xF033 (fun t => recorded t .memoryFault 0xF033 0x202 0x10FE) = true := by decide

/-- The start of T166, with a byte at 0303. -/
def fourRegisters : State :=
  (((((running.setReg 0 0x11).setReg 1 0x22).setReg 2 0x33).setReg 3 0x44).setI 0x300).store 0x303 0x99

/-- T166. -/
theorem test_stm : after fourRegisters 0xF255 (fun t => t.M.readAll 0x300 4 == [0x11, 0x22, 0x33, 0x99] && t.I == 0x300) = true := by
  decide

/-- T170, T171. -/
theorem test_stm_faults :
    after ((running.setI 0xFF1).setReg 0 0x5A) 0xFF55 (fun t =>
      recorded t .memoryFault 0xFF55 0x202 0x1000 && t.M.read 0xFF1 == 0) &&
    after (running.setI 0x10FE) 0xF055 (fun t => recorded t .memoryFault 0xF055 0x202 0x10FE) = true := by decide

/-- The start of T167. -/
def fourBytes : State :=
  (((((running.store 0x300 0xAA).store 0x301 0xBB).store 0x302 0xCC).store 0x303 0xDD).setI 0x300).setReg 3 0x99

/-- T167. -/
theorem test_ldm : after fourBytes 0xF265 (fun t =>
    t.reg 0 == 0xAA && t.reg 1 == 0xBB && t.reg 2 == 0xCC && t.reg 3 == 0x99 && t.I == 0x300) = true := by decide

/-- T170, T171. -/
theorem test_ldm_faults :
    after (running.setI 0xFF1) 0xFF65 (fun t => recorded t .memoryFault 0xFF65 0x202 0x1000) &&
    after (running.setI 0x10FE) 0xF065 (fun t => recorded t .memoryFault 0xF065 0x202 0x10FE) = true := by decide

/-! The engine, the tick, faults, reset, load -/

/-- T181: an illegal word. -/
theorem test_illegal_word_halts : after running 0x812A (fun t => recorded t .unknownOpcode 0x812A 0x202 0) = true := by decide

/-- T182 and T48; T183 is a legal fetch at the last place. -/
theorem test_fetch_outside_memory :
    isNext (step (running.setPc 0xFFF)) (fun t => recorded t .memoryFault 0 0xFFF 0x1000 && t.pc == 0xFFF) &&
    isNext (step (running.setPc 0x1234)) (fun t => recorded t .memoryFault 0 0x1234 0x1234) &&
    after (running.setPc 0xFFE) 0x1200 (fun t => t.pc == 0x200) = true := by decide

/-- T154. -/
theorem test_tick :
    isNext (step (((moving .run .tick).setDT 2).setST 1)) (fun t => t.DT == 1 && t.ST == 0 && t.pc == 0x200) &&
    isNext (step (moving .run .tick)) (fun t => t.DT == 0 && t.ST == 0) = true := by decide

/-- T184: in `HALTED` the engine has no step and a tick changes no timer. -/
theorem test_halted :
    isFault (step (moving .halted .engine)) (.halted none) &&
    isNext (step ((moving .halted .tick).setDT 5)) (fun t => t.DT == 5 && t.PHASE == .halted) = true := by decide

/-- T185. -/
theorem test_reset_input :
    isNext (step ((lit (moving .halted .reset) [7]).store 0x300 0x12)) (fun t =>
      t.PHASE == .load && t.pc == 0x200 && t.sp == 0x52 && t.M == [] && t.FAULT == none && t.env.display.lit == []) = true := by decide

/-- T188, and what covers what when font and ROM are there (R282). -/
theorem test_load :
    isNext (step ((moving .load .engine).setEnv { Env.reset with rom := [0x12], font := [0xF0, 0x90] })) (fun t =>
      t.M == [(0, 0xF0), (1, 0x90), (0x200, 0x12)] && t.PHASE == .run && t.pc == 0x200) = true := by decide

/-- `load(addr, byte)` and `release` (R260): in `LOAD` alone (R67, R261, U21). -/
theorem test_host_interactions :
    isNext (step ((moving .load (.load 0xFFF 0x12)).store 0x200 0x34)) (fun t =>
      t.M == [(0x200, 0x34), (0xFFF, 0x12)] && t.PHASE == .load) &&
    isNext (step (moving .load .release)) (fun t => t.PHASE == .run && t.M == []) &&
    [Phase.run, .waitKey 3, .halted].all (fun p =>
      isRefused (step (moving p (.load 0xFFF 0x12))) .hostAccess && isRefused (step (moving p .release)) .hostAccess) = true := by
  decide

/-- T186. -/
theorem test_load_error :
    step ((moving .load .engine).setEnv { Env.reset with rom := List.replicate 3585 0 }) = .refused .loadError := by
  have h : romFits (List.replicate 3585 0) = false := by
    unfold romFits; rw [List.length_replicate]; decide
  show hostLoad _ = _
  simp only [hostLoad, State.turn, State.setEnv, h, Bool.and_false, Bool.false_eq_true, if_false]

/-- From reset with nothing placed the host loads nothing and releases, and the first word is illegal (T180). -/
theorem test_first_steps_from_reset :
    isNext (step State.reset) (fun t => t.PHASE == .run && t.M == []) &&
    isNext (step running) (fun t => recorded t .unknownOpcode 0x0000 0x202 0) = true := by decide

/-- The trace word of a completed cycle (R114); a faulting cycle and the start of a wait have none, the end of a wait has. -/
theorem test_trace :
    traceWord (running.withFetchWord 16 0x6005) = some 0x6005 ∧ traceWord (running.withFetchWord 16 0x812A) = none ∧
    traceWord (running.withFetchWord 16 0xF30A) = none ∧ traceWord (waiting .engine (.mapped 7)) = some 0xF30A ∧
    traceWord (waiting .engine .none) = none := by decide

/-- The codes of R244. -/
theorem test_cause_codes :
    causeCode none = 0 ∧ causeCode (some { cause := .unknownOpcode, instr := 0, pc := 0, addr := 0 }) = 1 ∧
    causeCode (some { cause := .memoryFault, instr := 0, pc := 0, addr := 0 }) = 2 ∧ loadErrorCode = 3 := by decide

/-! Witnesses: for each obligation with hypotheses, states and operands that meet them all together, at the boundary values of
each clause. The name gives the obligation's id. -/

/-- A handler run on a state answers a next state with this property. -/
def runs (i : Instr) (s : State) (p : State → Bool) : Bool := isNext (exec i s) p

/-- A word placed at `pc` of a state whose engine is to move. -/
def placed (pc op : Word) : State := (running.setPc pc).placeWord op

theorem witness_O1 : Instr.wellFormed (.drw 0xF 0x0 0xF) = true := by decide

theorem witness_O2 : decode 0x512F = .ok (.ser 0x1 0x2) ∧ decode 0x81F6 = .ok (.shr 0x1) ∧ decode 0xD125 = .ok (.drw 0x1 0x2 0x5) :=
  ⟨rfl, rfl, rfl⟩

theorem witness_O6 : ∀ pc, pc = 0x0000 ∨ pc = 0x0FFE → (placed pc 0x6005).PHASE = .run ∧ (placed pc 0x6005).nextEvent = .engine ∧
    (placed pc 0x6005).pc.toNat ≤ 0x0FFE ∧
    decode ((placed pc 0x6005).M.read (placed pc 0x6005).pc.toNat ++ (placed pc 0x6005).M.read ((placed pc 0x6005).pc.toNat + 1)) =
      .ok (.ldi 0x0 0x05) := by
  rintro _ (rfl | rfl) <;> exact ⟨rfl, rfl, by decide, rfl⟩

theorem witness_O7 : ∀ pc, pc = 0x0000 ∨ pc = 0x0FFE → (placed pc 0x812A).PHASE = .run ∧ (placed pc 0x812A).nextEvent = .engine ∧
    (placed pc 0x812A).pc.toNat ≤ 0x0FFE ∧
    decode ((placed pc 0x812A).M.read (placed pc 0x812A).pc.toNat ++ (placed pc 0x812A).M.read ((placed pc 0x812A).pc.toNat + 1)) =
      .error .illegalFamily8 := by
  rintro _ (rfl | rfl) <;> exact ⟨rfl, rfl, by decide, rfl⟩

theorem witness_O8 : ∀ pc, pc = 0x0FFF ∨ pc = 0x1000 ∨ pc = 0xFFFF → (running.setPc pc).PHASE = .run ∧
    (running.setPc pc).nextEvent = .engine ∧ 0x0FFE < (running.setPc pc).pc.toNat := by
  rintro _ (rfl | rfl | rfl) <;> exact ⟨rfl, rfl, by decide⟩

theorem witness_O9 :
    ((moving .halted .engine).PHASE = .halted ∧ (moving .halted .engine).nextEvent = .engine) ∧
    ((moving .halted .tick).PHASE = .halted ∧ (moving .halted .tick).nextEvent = .tick) ∧
    ((moving .halted .reset).PHASE = .halted ∧ ∃ t, step (moving .halted .reset) = .next t ∧ t.PHASE ≠ .halted) := by
  refine ⟨⟨rfl, rfl⟩, ⟨rfl, rfl⟩, rfl, ?_⟩
  obtain ⟨t, h, hp⟩ := exists_next (p := fun t => decide (t.PHASE ≠ .halted)) (o := step (moving .halted .reset)) (by decide)
  exact ⟨t, h, of_decide_eq_true hp⟩

theorem witness_O10 : ∀ p ∈ [Phase.load, .run, .waitKey 0xF, .halted], (moving p .tick).nextEvent = .tick ∧ (moving p .tick).PHASE = p := by
  decide

theorem witness_O11 : (∀ p ∈ [Phase.load, .run, .waitKey 0xF, .halted], (moving p .reset).nextEvent = .reset ∧ (moving p .reset).PHASE = p) ∧
    ∃ t, (moving .halted .reset).PHASE = .halted ∧ step (moving .halted .reset) = .next t ∧ t.PHASE ≠ .halted := by
  refine ⟨by decide, ?_⟩
  obtain ⟨t, h, hp⟩ := exists_next (p := fun t => decide (t.PHASE ≠ .halted)) (o := step (moving .halted .reset)) (by decide)
  exact ⟨t, rfl, h, of_decide_eq_true hp⟩

/-- A load of images of these lengths. -/
def loading (font rom : Nat) : State :=
  (moving .load .engine).setEnv { Env.reset with schedule := [.engine], font := List.replicate font 1, rom := List.replicate rom 1 }

theorem witness_O13 : ∀ f r, Memory.wf (loading f r).M = true ∧ (loading f r).PHASE = .load ∧ (loading f r).nextEvent = .engine ∧
    ((f = 4096 ∧ r = 3584) ∨ (f = 0 ∧ r = 0) → (loading f r).env.font.length ≤ 4096 ∧ (loading f r).env.rom.length ≤ 3584) ∧
    ((f = 4097 ∧ r = 0) ∨ (f = 0 ∧ r = 3585) → ¬ ((loading f r).env.font.length ≤ 4096 ∧ (loading f r).env.rom.length ≤ 3584)) := by
  intro f r
  refine ⟨rfl, rfl, rfl, ?_, ?_⟩
  all_goals
    show _ → _
    rw [show (loading f r).env.font.length = f from List.length_replicate, show (loading f r).env.rom.length = r from List.length_replicate]
    omega

theorem witness_O14 :
    ((placed 0x200 0x6005).nextEvent = .engine ∧ (placed 0x200 0x6005).PHASE = .run ∧
      ∃ t, step (placed 0x200 0x6005) = .next t ∧ t.PHASE = .run) ∧
    ((placed 0x200 0x812A).nextEvent = .engine ∧ (placed 0x200 0x812A).PHASE = .run ∧
      ∃ t, step (placed 0x200 0x812A) = .next t ∧ t.PHASE ≠ .run) ∧
    ((waiting .engine (.mapped 7)).nextEvent = .engine ∧ (waiting .engine (.mapped 7)).PHASE = .waitKey 3 ∧
      ∃ t, step (waiting .engine (.mapped 7)) = .next t ∧ t.PHASE = .run) ∧
    ((waiting .engine .none).nextEvent = .engine ∧ (waiting .engine .none).PHASE = .waitKey 3 ∧
      ∃ t, step (waiting .engine .none) = .next t ∧ t.PHASE ≠ .run) := by
  refine ⟨⟨rfl, rfl, ?_⟩, ⟨rfl, rfl, ?_⟩, ⟨rfl, rfl, ?_⟩, rfl, rfl, ?_⟩
  · obtain ⟨t, h, hp⟩ := exists_next (p := fun t => decide (t.PHASE = .run)) (o := step (placed 0x200 0x6005)) (by decide)
    exact ⟨t, h, of_decide_eq_true hp⟩
  · obtain ⟨t, h, hp⟩ := exists_next (p := fun t => decide (t.PHASE ≠ .run)) (o := step (placed 0x200 0x812A)) (by decide)
    exact ⟨t, h, of_decide_eq_true hp⟩
  · obtain ⟨t, h, hp⟩ := exists_next (p := fun t => decide (t.PHASE = .run)) (o := step (waiting .engine (.mapped 7))) (by decide)
    exact ⟨t, h, of_decide_eq_true hp⟩
  · obtain ⟨t, h, hp⟩ := exists_next (p := fun t => decide (t.PHASE ≠ .run)) (o := step (waiting .engine .none)) (by decide)
    exact ⟨t, h, of_decide_eq_true hp⟩

/-- The reset state, released, meets the invariant. -/
theorem running_inv : running.Inv := ⟨rfl, rfl, rfl, by decide, by decide⟩

theorem witness_O15 : running.Inv ∧ (running.setSp 0x1000).Inv ∧ (∃ t, step running = .next t) ∧
    ∃ t, step ((running.setSp 0x1000).withFetchWord 16 0x2300) = .next t := by
  refine ⟨running_inv, ⟨rfl, rfl, by decide, by decide, by decide⟩, ?_, ?_⟩
  · obtain ⟨t, h, _⟩ := exists_next (p := fun _ => true) (o := step running) (by decide)
    exact ⟨t, h⟩
  · obtain ⟨t, h, _⟩ := exists_next (p := fun _ => true) (o := step ((running.setSp 0x1000).withFetchWord 16 0x2300)) (by decide)
    exact ⟨t, h⟩

/-- Handlers answer next states: what the obligations over every instruction (O17 to O22, O24) assume of `exec`. -/
theorem witness_O17 :
    (∃ t, exec (.call 0x300) (running.setSp 0xFFE) = .next t ∧ t.sp = 0x1000) ∧ (∃ t, exec .ret (running.setSp 2) = .next t ∧ t.sp = 0) ∧
    ∃ t, exec .ret (running.setSp 0) = .next t ∧ t.sp = 0 := by
  refine ⟨?_, ?_, ?_⟩
  · obtain ⟨t, h, hp⟩ := exists_next (p := fun t => decide (t.sp = 0x1000)) (o := exec (.call 0x300) (running.setSp 0xFFE)) (by decide)
    exact ⟨t, h, of_decide_eq_true hp⟩
  · obtain ⟨t, h, hp⟩ := exists_next (p := fun t => decide (t.sp = 0)) (o := exec .ret (running.setSp 2)) (by decide)
    exact ⟨t, h, of_decide_eq_true hp⟩
  · obtain ⟨t, h, hp⟩ := exists_next (p := fun t => decide (t.sp = 0)) (o := exec .ret (running.setSp 0)) (by decide)
    exact ⟨t, h, of_decide_eq_true hp⟩

theorem witness_O18 :
    (∃ t, exec (.sdt 1) (running.setReg 1 9) = .next t ∧ t.DT ≠ (running.setReg 1 9).DT) ∧
    ∃ t, exec (.sst 1) (running.setReg 1 9) = .next t ∧ t.ST ≠ (running.setReg 1 9).ST :=
  ⟨⟨_, rfl, by decide⟩, _, rfl, by decide⟩

theorem witness_O19 :
    (∃ t, exec (.lda 0x300) running = .next t ∧ t.I ≠ running.I) ∧
    (∃ t, exec (.adda 1) (running.setReg 1 9) = .next t ∧ t.I ≠ (running.setReg 1 9).I) ∧
    ∃ t, exec (.fnt 1) (running.setReg 1 9) = .next t ∧ t.I ≠ (running.setReg 1 9).I :=
  ⟨⟨_, rfl, by decide⟩, ⟨_, rfl, by decide⟩, _, rfl, by decide⟩

theorem witness_O20 : ∃ t, exec (.stm 1) ((running.setReg 1 9).setI 0x300) = .next t ∧
    ¬ SameMemory ((running.setReg 1 9).setI 0x300) t := by
  obtain ⟨t, h, hp⟩ := exists_next (p := fun t => decide (t.M.read 0x301 = 9))
    (o := exec (.stm 1) ((running.setReg 1 9).setI 0x300)) (by decide)
  exact ⟨t, h, fun e => absurd ((of_decide_eq_true hp).symm.trans (e 0x301)) (by decide)⟩

theorem witness_O21 :
    (∃ t, exec (.add 1 1) (running.setReg 1 0x90) = .next t ∧ t.reg 0xF ≠ (running.setReg 1 0x90).reg 0xF) ∧
    (∃ t, exec (.shl 1) (running.setReg 1 0x90) = .next t ∧ t.reg 0xF ≠ (running.setReg 1 0x90).reg 0xF) ∧
    ∃ t, exec (.ldi 0xF 1) running = .next t ∧ t.reg 0xF ≠ running.reg 0xF :=
  ⟨⟨_, rfl, by decide⟩, ⟨_, rfl, by decide⟩, _, rfl, by decide⟩

theorem witness_O22 : (running.setSp 0).PHASE = .run ∧ (∃ t, exec .ret (running.setSp 0) = .next t ∧ t.PHASE = .halted) ∧
    ∃ t, exec (.ldm 0xF) ((running.setSp 0).setI 0xFF1) = .next t ∧ t.PHASE = .halted := by
  refine ⟨rfl, ?_, ?_⟩
  · obtain ⟨t, h, hp⟩ := exists_next (p := fun t => decide (t.PHASE = .halted)) (o := exec .ret (running.setSp 0)) (by decide)
    exact ⟨t, h, of_decide_eq_true hp⟩
  · obtain ⟨t, h, hp⟩ := exists_next (p := fun t => decide (t.PHASE = .halted))
      (o := exec (.ldm 0xF) ((running.setSp 0).setI 0xFF1)) (by decide)
    exact ⟨t, h, of_decide_eq_true hp⟩

/-- An instruction of each clause of O24 completes on the released reset state. -/
theorem witness_O24 : ∀ i ∈ [Instr.jp 0xFFF, .call 0xFFF, .ret, .jpr 0xFFF, .sei 0 0, .snei 0 0, .ser 0 1, .sner 0 1, .skup 0, .skdn 0,
    .cls, .drw 0 0 0xF, .wkey 0, .ldm 0xF], running.PHASE = .run ∧ ∃ t, exec i running = .next t ∧ t.PHASE ≠ .halted := by
  have completes : ∀ i, runs i running (fun t => decide (t.PHASE ≠ .halted)) = true → running.PHASE = .run ∧
      ∃ t, exec i running = .next t ∧ t.PHASE ≠ .halted := fun i h => by
    obtain ⟨t, h, hp⟩ := exists_next h
    exact ⟨rfl, t, h, of_decide_eq_true hp⟩
  intro i hi
  by_cases hk : i = .skup 0 ∨ i = .skdn 0
  · have hcase : ∀ b : Bool, (running.afterKeyPressed.skipIf b).PHASE ≠ .halted := by decide
    obtain rfl | rfl := hk
    · exact ⟨rfl, _, rfl, hcase _⟩
    · exact ⟨rfl, _, rfl, hcase _⟩
  · apply completes
    revert i
    decide

theorem witness_O26 :
    (Memory.wf (running.setSp 0xFFE).M = true ∧ (running.setSp 0xFFE).sp.toNat ≤ 0x0FFE) ∧
    (Memory.wf (running.setSp 0xFFF).M = true ∧ 0x0FFE < (running.setSp 0xFFF).sp.toNat) ∧
    (Memory.wf (running.setSp 0x1000).M = true ∧ 0x0FFE < (running.setSp 0x1000).sp.toNat) := by decide

theorem witness_O27 :
    (2 ≤ (running.setSp 2).sp.toNat ∧ (running.setSp 2).sp.toNat ≤ 0x1000) ∧
    (2 ≤ (running.setSp 0x1000).sp.toNat ∧ (running.setSp 0x1000).sp.toNat ≤ 0x1000) ∧
    ¬ (2 ≤ (running.setSp 1).sp.toNat ∧ (running.setSp 1).sp.toNat ≤ 0x1000) ∧
    ¬ (2 ≤ (running.setSp 0x1001).sp.toNat ∧ (running.setSp 0x1001).sp.toNat ≤ 0x1000) := by decide

theorem witness_O28 : Memory.wf (running.setSp 0xFFE).M = true ∧ (running.setSp 0xFFE).sp.toNat ≤ 0x0FFE ∧
    ∃ t u : State, exec (.call 0x300) (running.setSp 0xFFE) = .next t ∧ u.sp = t.sp ∧
      u.M.read (running.setSp 0xFFE).sp.toNat = t.M.read (running.setSp 0xFFE).sp.toNat ∧
      u.M.read ((running.setSp 0xFFE).sp.toNat + 1) = t.M.read ((running.setSp 0xFFE).sp.toNat + 1) := by
  refine ⟨by decide, by decide, ?_⟩
  obtain ⟨t, h, _⟩ := exists_next (p := fun _ => true) (o := exec (.call 0x300) (running.setSp 0xFFE)) (by decide)
  exact ⟨t, t, h, rfl, rfl, rfl⟩

/-- The case `x` not 15 and the case `x` = 15 of O35, O36 and O37. -/
theorem witness_O35_O36_O37 : (0x0 : RegIx) ≠ 0xF ∧ (0xE : RegIx) ≠ 0xF ∧ (0xF : RegIx) = 0xF := by decide

theorem witness_O38 : ∃ t t', ((sprite 0x80 5 0).setReg 0xF 5).reg 0xF = ((sprite 0x80 5 0).setReg 0xF 5).reg 0x1 ∧
      ((sprite 0x80 5 0).setReg 0xF 5).reg 0x2 = ((sprite 0x80 5 0).setReg 0xF 5).reg 0x2 ∧
      ((sprite 0x80 5 0).setReg 0xF 5).PHASE ≠ .halted ∧
      exec (.drw 0xF 0x2 0x1) ((sprite 0x80 5 0).setReg 0xF 5) = .next t ∧ t.PHASE ≠ .halted ∧
      exec (.drw 0x1 0x2 0x1) ((sprite 0x80 5 0).setReg 0xF 5) = .next t' := by
  obtain ⟨t, h, hp⟩ := exists_next (p := fun t => decide (t.PHASE ≠ .halted))
    (o := exec (.drw 0xF 0x2 0x1) ((sprite 0x80 5 0).setReg 0xF 5)) (by decide)
  obtain ⟨t', h', _⟩ := exists_next (p := fun _ => true)
    (o := exec (.drw 0x1 0x2 0x1) ((sprite 0x80 5 0).setReg 0xF 5)) (by decide)
  exact ⟨t, t', by decide, rfl, by decide, h, of_decide_eq_true hp, h'⟩

theorem witness_O40 : (∃ t, exec (.rnd 0xF 0x0F) oneRandom = .next t ∧ t.env.random ≠ oneRandom.env.random) ∧
    (0x0F : Byte).getLsbD 7 = false ∧ oneRandom.env.random = 0xA7 :: [] :=
  ⟨⟨_, rfl, by decide⟩, by decide, rfl⟩

/-- The smallest display on which a sprite cannot meet itself. -/
def narrow (s : State) : State := s.setDisplay { width := 8, height := 15, lit := [] }

theorem witness_O42 :
    ((0x0 : Nibble) = 0 ∨ (running.setI 0xFFFF).I.toNat + (0x0 : Nibble).toNat - 1 ≤ 0x0FFF) ∧
    ((0xF : Nibble) = 0 ∨ (narrow (running.setI 0xFF1)).I.toNat + (0xF : Nibble).toNat - 1 ≤ 0x0FFF) ∧
    (narrow (running.setI 0xFF1)).env.display.wf = true ∧ 8 ≤ (narrow (running.setI 0xFF1)).env.display.width ∧
    15 ≤ (narrow (running.setI 0xFF1)).env.display.height ∧ (∃ px py, px < (narrow (running.setI 0xFF1)).env.display.width ∧
      py < (narrow (running.setI 0xFF1)).env.display.height) := by
  refine ⟨by decide, by decide, by decide, by decide, by decide, 7, 14, by decide, by decide⟩

theorem witness_O43 :
    (1 ≤ (0x1 : Nibble).toNat ∧ 0x0FFF < (running.setI 0x1000).I.toNat + (0x1 : Nibble).toNat - 1) ∧
    (1 ≤ (0xF : Nibble).toNat ∧ 0x0FFF < (running.setI 0xFF2).I.toNat + (0xF : Nibble).toNat - 1) := by decide

theorem witness_O44 :
    (0x1 : RegIx) ≠ 0xF ∧ (0x2 : RegIx) ≠ 0xF ∧ ((0x1 : Nibble) = 0 ∨ (narrow (sprite 0x01 7 14)).I.toNat + (0x1 : Nibble).toNat - 1 ≤ 0x0FFF) ∧
    (narrow (sprite 0x01 7 14)).env.display.lit = [] ∧ 8 ≤ (narrow (sprite 0x01 7 14)).env.display.width ∧
    15 ≤ (narrow (sprite 0x01 7 14)).env.display.height ∧
    (∃ dy, dy < (0x1 : Nibble).toNat ∧ (narrow (sprite 0x01 7 14)).M.read ((narrow (sprite 0x01 7 14)).I.toNat + dy) ≠ 0) ∧
    ¬ (∃ dy, dy < (0x0 : Nibble).toNat ∧ (narrow (sprite 0x01 7 14)).M.read ((narrow (sprite 0x01 7 14)).I.toNat + dy) ≠ 0) :=
  ⟨by decide, by decide, by decide, by decide, by decide, by decide, ⟨0, by decide, by decide⟩, fun ⟨_, h, _⟩ => absurd h (Nat.not_lt_zero _)⟩

theorem witness_O45 : (0xF : Nibble).toNat = ((key 0x0F true).reg 2).toNat ∧ (key 0x0F true).env.pressed = true :: [] ∧ 15 < ((key 0x10 true).reg 2).toNat := by
  decide

theorem witness_O47 :
    ((waiting .tick .none).PHASE = .waitKey 3 ∧ (waiting .tick .none).nextEvent = .tick) ∧
    ∀ a, a = .none ∨ a = .mapped 0xF ∨ a = .unmapped → (waiting .engine a).PHASE = .waitKey 3 ∧
      (waiting .engine a).nextEvent = .engine ∧ (waiting .engine a).env.current = a :: [] :=
  ⟨⟨rfl, rfl⟩, fun _ _ => ⟨rfl, rfl, rfl⟩⟩

theorem witness_O50 :
    (Memory.wf (running.setI 0xFFD).M = true ∧ (running.setI 0xFFD).I.toNat ≤ 0x0FFD) ∧
    0x0FFD < (running.setI 0xFFE).I.toNat ∧ 0x0FFD < (running.setI 0x1000).I.toNat := by decide

theorem witness_O51 :
    (Memory.wf (running.setI 0xFF0).M = true ∧ (running.setI 0xFF0).I.toNat + (0xF : RegIx).toNat ≤ 0x0FFF) ∧
    (Memory.wf (running.setI 0xFF1).M = true ∧ 0x0FFF < (running.setI 0xFF1).I.toNat + (0xF : RegIx).toNat) ∧
    0x0FFF < (running.setI 0x1000).I.toNat + (0x0 : RegIx).toNat ∧ (0xF : RegIx).toNat ≤ (0xF : RegIx).toNat := by decide

theorem witness_O52 :
    ((running.setI 0xFF0).I.toNat + (0xF : RegIx).toNat ≤ 0x0FFF ∧ 0x0FFF < (running.setI 0xFF1).I.toNat + (0xF : RegIx).toNat) ∧
    Memory.wf fourRegisters.M = true ∧ fourRegisters.I.toNat + (0x2 : RegIx).toNat ≤ 0x0FFF ∧
    ∃ t u, exec (.stm 0x2) fourRegisters = .next t ∧ u.I = fourRegisters.I ∧ SameMemory t u := by
  refine ⟨by decide, by decide, by decide, ?_⟩
  obtain ⟨t, h, hp⟩ := exists_next (p := fun t => decide (t.I = 0x300)) (o := exec (.stm 0x2) fourRegisters) (by decide)
  exact ⟨t, t, h, of_decide_eq_true hp, fun _ => rfl⟩

/-- Program P4 in one step: `STM V1` about to plant `LDI V2, 2A` where the next fetch reads. -/
def planting : State := (((running.setReg 0 0x62).setReg 1 0x2A).setI 0x208).setPc 0x208

theorem witness_O53 : Memory.wf planting.M = true ∧ planting.PHASE = .run ∧ planting.I.toNat + (0x1 : RegIx).toNat ≤ 0x0FFF ∧
    (0x0 : RegIx).toNat + 1 ≤ (0x1 : RegIx).toNat ∧ planting.pc.toNat = planting.I.toNat + (0x0 : RegIx).toNat ∧
    decode (planting.reg 0x0 ++ planting.reg (0x0 + 1)) = .ok (.ldi 0x2 0x2A) ∧
    decode ((planting.setReg 0 0).reg 0x0 ++ (planting.setReg 0 0).reg (0x0 + 1)) = .error .illegalFamily0 ∧
    ∃ t, exec (.stm 0x1) planting = .next t ∧ t.nextEvent = .engine := by
  refine ⟨by decide, by decide, by decide, by decide, by decide, rfl, rfl, ?_⟩
  obtain ⟨t, h, hp⟩ := exists_next (p := fun t => decide (t.nextEvent = .engine)) (o := exec (.stm 0x1) planting) (by decide)
  exact ⟨t, h, of_decide_eq_true hp⟩

theorem witness_O54 : (∀ p ∈ [Phase.load, .run, .waitKey 0xF, .halted], Memory.wf (moving p .release).M = true ∧
    (moving p (.load 0xFFF 0x12)).nextEvent = .load 0xFFF 0x12 ∧ (moving p .release).nextEvent = .release ∧
    (moving p (.load 0xFFF 0x12)).PHASE = p ∧ (moving p .release).PHASE = p) ∧ (Phase.run ≠ .load) := by decide

/-- A host that will load these images byte by byte and release. -/
def loadingBytes (font rom : List Byte) : State :=
  State.reset.setEnv { Env.reset with schedule := loadsFrom 0 font ++ loadsFrom 0x200 rom ++ .release :: [] }

theorem witness_O55 : ∀ f r, (f = 4096 ∧ r = 3584) ∨ (f = 0 ∧ r = 0) → ∃ font rom : List Byte, font.length = f ∧ rom.length = r ∧
    Memory.wf (loadingBytes font rom).M = true ∧ (loadingBytes font rom).PHASE = .load ∧ font.length ≤ 4096 ∧ rom.length ≤ 3584 ∧
    (loadingBytes font rom).env.schedule = loadsFrom 0 font ++ loadsFrom 0x200 rom ++ .release :: [] := by
  intro f r h
  have hf : (List.replicate f (1 : Byte)).length = f := List.length_replicate
  have hr : (List.replicate r (1 : Byte)).length = r := List.length_replicate
  exact ⟨List.replicate f 1, List.replicate r 1, hf, hr, rfl, rfl, by omega, by omega, rfl⟩

theorem witness_O56 :
    ((0x0 : Nibble) = 0 ∨ (small (running.setI 0xFFFF)).I.toNat + (0x0 : Nibble).toNat - 1 ≤ 0x0FFF) ∧
    ((0xF : Nibble) = 0 ∨ (small (running.setI 0xFF1)).I.toNat + (0xF : Nibble).toNat - 1 ≤ 0x0FFF) ∧
    (small (running.setI 0xFFFF)).env.display.wf = true ∧ (small (running.setI 0xFF1)).env.display.wf = true ∧
    spriteHits (small (sprite 0x89 0 0)) 1 2 1 0 0 = 2 ∧ spriteHits (small (sprite 0x89 0 0)) 1 2 1 3 0 = 1 ∧
    spriteHits (small (sprite 0x89 0 0)) 1 2 1 1 0 = 0 := by decide

end Sys2Proof.Tests
end

/-!
The family of the state. What a handler can do to the state is said once (`exec_effect`): an inductive relation with one
constructor per kind of effect, the pieces of state it may touch written out and all the others kept. Which instruction
writes which piece of state, and the invariant of the machine, are read off from it.
-/

section
namespace Sys2Proof.Machine

/-- The data registers the rule of an instruction lets its handler write (R22). -/
def writesReg : Instr → RegIx → Prop
  | .ldi x _, r | .addi x _, r | .rnd x _, r | .gdt x, r => r = x
  | .mov x _, r | .or x _, r | .and x _, r | .xor x _, r => r = x
  | .add x _, r | .sub x _, r | .subn x _, r | .shr x, r | .shl x, r => r = x ∨ r = 0xF
  | .drw _ _ _, r => r = 0xF
  | .ldm x, r => r.toNat ≤ x.toNat
  | _, _ => False

/-- The instructions whose handler moves `pc` on from its advanced value (R25). -/
def movesPc : Instr → Prop
  | .jp _ | .call _ | .ret | .jpr _ => True
  | .sei _ _ | .snei _ _ | .ser _ _ | .sner _ _ | .skup _ | .skdn _ => True
  | _ => False

/-- What the handler of an instruction does to the state it starts from, by kind of effect. A constructor names the pieces of
state it may touch, and keeps all the others. -/
inductive Effect (s : State) : Instr → State → Prop
  /-- The handler halts the core and changes nothing else (R119, R242). -/
  | fault {i : Instr} {a : Int} (hi : accessesMemory i) : Effect s i (s.raiseMemoryFault (encode i) a)
  /-- Data registers, the random source and the display (R150 to R162, R180, R181, R210, R217). -/
  | data {i : Instr} {v : Vector Byte 16} {e : Env}
      (hv : ∀ r, ¬ writesReg i r → State.reg { s with V := v, env := e } r = s.reg r)
      (he : s.env.display.wf = true → e.display.wf = true) : Effect s i { s with V := v, env := e }
  /-- A jump or a skip, which may have consumed a key answer (R131, R133 to R137, R182, R183). -/
  | jump {i : Instr} {w : Word} {e : Env} (hi : movesPc i) (he : e.display = s.env.display) :
      Effect s i ((s.setEnv e).setPc w)
  /-- A return whose pop is inside memory (R130). -/
  | ret {w : Word} (hsp : 2 ≤ s.sp.toNat ∧ s.sp.toNat ≤ 0x1000) : Effect s .ret ((s.setSp (s.sp - 2)).setPc w)
  /-- A call whose push is inside memory (R132). -/
  | call {nnn : Imm12} {m : Memory} (hsp : s.sp.toNat ≤ 0x0FFE) (hm : Memory.wf s.M = true → Memory.wf m = true) :
      Effect s (.call nnn) (((s.setM m).setSp (s.sp + 2)).setPc (wideAddr nnn))
  /-- A write of the index register (R161, R213, R214). -/
  | index {i : Instr} {w : Word} (hi : (∃ nnn, i = .lda nnn) ∨ (∃ x, i = .adda x) ∨ ∃ x, i = .fnt x) : Effect s i (s.setI w)
  /-- A write of the delay timer (R211). -/
  | delay (x : RegIx) (b : Byte) : Effect s (.sdt x) (s.setDT b)
  /-- A write of the sound timer (R212). -/
  | sound (x : RegIx) (b : Byte) : Effect s (.sst x) (s.setST b)
  /-- A store from the index register up (R215, R216). -/
  | store {i : Instr} {m : Memory} (hi : (∃ x, i = .bcd x) ∨ ∃ x, i = .stm x)
      (hm : Memory.wf s.M = true → Memory.wf m = true) : Effect s i (s.setM m)
  /-- The entry into the key wait (R184). -/
  | wait (x : RegIx) : Effect s (.wkey x) (s.setPhase (.waitKey x))

/-! The kinds of effect, in the operations the handlers are written in -/

/-- A write of one register the instruction may write. -/
theorem Effect.setReg {s : State} {i : Instr} {x : RegIx} {b : Byte} (hx : writesReg i x) : Effect s i (s.setReg x b) :=
  .data (fun r hr => (s.reg_setReg x r b).trans (if_neg fun (e : r = x) => hr (e ▸ hx))) id

/-- Two writes, one after the other, of registers the instruction may write: a result and a flag (R118). -/
theorem Effect.setReg_setReg {s : State} {i : Instr} {x y : RegIx} {a b : Byte} (hx : writesReg i x)
    (hy : writesReg i y) : Effect s i ((s.setReg x a).setReg y b) :=
  .data (fun r hr => by
    have hrx : r ≠ x := fun e => hr (e ▸ hx)
    have hry : r ≠ y := fun e => hr (e ▸ hy)
    exact ((s.setReg x a).reg_setReg y r b).trans ((if_neg hry).trans ((s.reg_setReg x r a).trans (if_neg hrx)))) id

/-- `LDM`'s loop writes the registers up to `x` (R217). -/
theorem Effect.loadRegs (s : State) (a : Nat) (x : RegIx) : Effect s (.ldm x) (s.loadRegs a (x.toNat + 1)) := by
  obtain ⟨v, hv⟩ := s.loadRegs_rest a (x.toNat + 1)
  have hregs (r : RegIx) (hr : ¬ r.toNat ≤ x.toNat) : (s.loadRegs a (x.toNat + 1)).reg r = s.reg r := by
    rw [s.reg_loadRegs a _ x.isLt, if_neg (by omega)]
  rw [hv] at hregs ⊢
  exact .data hregs id

/-- A skip, of an instruction that may have consumed a key answer first. -/
theorem Effect.skipIf {s : State} {i : Instr} {e : Env} {c : Bool} (hi : movesPc i) (he : e.display = s.env.display) :
    Effect s i ((s.setEnv e).skipIf c) := by
  rw [State.skipIf_eq]; exact .jump hi he

/-- A handler that checks its addresses first halts the core, or has the effect of its accesses (R119). -/
theorem Effect.of_checked {i : Instr} {addrs : List Int} {s t u : State} (hi : accessesMemory i)
    (h : checked i addrs s t = .next u) (ht : firstOutOfRange addrs = none → Effect s i t) : Effect s i u := by
  obtain ⟨a, _, rfl⟩ | ⟨hok, rfl⟩ := checked_cases h
  · exact .fault hi
  · exact ht hok

/-! The key skips and the memory writes -/

/-- The key a register names has the register's value as its number (R191). -/
theorem toNat_of_keyIndex {v : Byte} {k : Nibble} (h : keyIndex v = some k) : k.toNat = v.toNat := by
  unfold keyIndex at h
  split at h
  · cases h; rw [BitVec.toNat_setWidth]; omega
  · cases h

/-- A `SKUP` that is not refused has asked for the key `V[x]` and skips when it is not pressed (R182). -/
theorem execSkup_cases {x : RegIx} {s t : State} (h : execSkup x s = .next t) :
    ∃ k : Nibble, k.toNat = (s.reg x).toNat ∧ t = s.afterKeyPressed.skipIf (skupSkips (s.keyPressed k)) := by
  unfold execSkup at h
  split at h
  · cases h
  next k hk => cases h; exact ⟨k, toNat_of_keyIndex hk, rfl⟩

/-- A `SKDN` that is not refused has asked for the key `V[x]` and skips when it is pressed (R183). -/
theorem execSkdn_cases {x : RegIx} {s t : State} (h : execSkdn x s = .next t) :
    ∃ k : Nibble, k.toNat = (s.reg x).toNat ∧ t = s.afterKeyPressed.skipIf (skdnSkips (s.keyPressed k)) := by
  unfold execSkdn at h
  split at h
  · cases h
  next k hk => cases h; exact ⟨k, toNat_of_keyIndex hk, rfl⟩

/-- `CALL`'s two writes keep memory canonical when their addresses are inside it (R132). -/
theorem Memory.wf_push {m : Memory} (hm : Memory.wf m = true) {a : Nat} (ha : a ≤ 0x0FFE) (b c : Byte) :
    Memory.wf ((m.write a b).write (a + 1) c) = true := by
  have h0 : a < Config.memSize := by rw [Config.memSize]; omega
  have h1 : a + 1 < Config.memSize := by rw [Config.memSize]; omega
  exact Memory.wf_write (Memory.wf_write hm h0 b) h1 c

/-- `BCD`'s three writes keep memory canonical when their addresses are inside it (R215). -/
theorem Memory.wf_digits {m : Memory} (hm : Memory.wf m = true) {a : Nat} (ha : a + 3 ≤ 4096) (b c d : Byte) :
    Memory.wf (((m.write a b).write (a + 1) c).write (a + 2) d) = true := by
  have h2 : a + 2 < Config.memSize := by rw [Config.memSize]; omega
  exact Memory.wf_write (Memory.wf_push hm (by omega) b c) h2 d

/-- What a handler that answers a next state has done. -/
theorem exec_effect {i : Instr} {s t : State} (h : exec i s = .next t) : Effect s i t := by
  cases i with
  | cls => cases h; exact .data (v := s.V) (fun _ _ => rfl) Display.wf_clear
  | ret => exact .of_checked trivial h fun hok => .ret ((popAddresses_ok s).mp hok)
  | jp nnn => cases h; exact .jump (e := s.env) trivial rfl
  | call nnn =>
    refine .of_checked trivial h fun hok => ?_
    have hsp := (pushAddresses_ok s).mp hok
    exact .call hsp fun hm => Memory.wf_push hm hsp _ _
  | sei x kk => cases h; exact .skipIf (e := s.env) trivial rfl
  | snei x kk => cases h; exact .skipIf (e := s.env) trivial rfl
  | ser x y => cases h; exact .skipIf (e := s.env) trivial rfl
  | sner x y => cases h; exact .skipIf (e := s.env) trivial rfl
  | jpr nnn => cases h; exact .jump (e := s.env) trivial rfl
  | ldi x kk => cases h; exact .setReg rfl
  | addi x kk => cases h; exact .setReg rfl
  | mov x y => cases h; exact .setReg rfl
  | or x y => cases h; exact .setReg rfl
  | and x y => cases h; exact .setReg rfl
  | xor x y => cases h; exact .setReg rfl
  | gdt x => cases h; exact .setReg rfl
  | add x y => cases h; exact .setReg_setReg (.inl rfl) (.inr rfl)
  | sub x y => cases h; exact .setReg_setReg (.inl rfl) (.inr rfl)
  | subn x y => cases h; exact .setReg_setReg (.inl rfl) (.inr rfl)
  | shr x => cases h; exact .setReg_setReg (.inr rfl) (.inl rfl)
  | shl x => cases h; exact .setReg_setReg (.inr rfl) (.inl rfl)
  | lda nnn => cases h; exact .index (.inl ⟨nnn, rfl⟩)
  | adda x => cases h; exact .index (.inr (.inl ⟨x, rfl⟩))
  | fnt x => cases h; exact .index (.inr (.inr ⟨x, rfl⟩))
  | rnd x kk => cases h; exact .data (fun r hr => (s.afterRandom.reg_setReg x r _).trans (if_neg hr)) id
  | drw x y n =>
    refine .of_checked trivial h fun _ => ?_
    exact .data (fun r hr => (State.reg_setFlag _ r _).trans (if_neg hr)) (s.env.display.draw_keeps _ _ _).1
  | skup x => obtain ⟨k, _, rfl⟩ := execSkup_cases h; exact .skipIf trivial rfl
  | skdn x => obtain ⟨k, _, rfl⟩ := execSkdn_cases h; exact .skipIf trivial rfl
  | wkey x => cases h; exact .wait x
  | sdt x => cases h; exact .delay x _
  | sst x => cases h; exact .sound x _
  | bcd x =>
    refine .of_checked trivial h fun hok => ?_
    have hI : s.I.toNat + 3 ≤ 4096 := by simpa using (dataAddresses_ok s 3).mp hok
    exact .store (.inl ⟨x, rfl⟩) fun hm => Memory.wf_digits hm hI _ _ _
  | stm x =>
    refine .of_checked trivial h fun hok => ?_
    have hI : s.I.toNat + (x.toNat + 1) ≤ 4096 := by simpa using (dataAddresses_ok s (x.toNat + 1)).mp hok
    exact .store (.inr ⟨x, rfl⟩) fun hm => State.wf_storeRegs hm _ _ hI
  | ldm x => exact .of_checked trivial h fun _ => .loadRegs s _ x

end Sys2Proof.Machine
end

/-! The frames of single pieces of state -/

section
namespace Sys2Proof.Machine

/-- A push moves `sp` without wrapping (R26). -/
theorem toNat_add_two {w : Word} (h : w.toNat ≤ 0x0FFE) : (w + 2).toNat = w.toNat + 2 := by bv_omega

/-- A pop moves `sp` without wrapping (R26). -/
theorem toNat_sub_two {w : Word} (h : 2 ≤ w.toNat) : (w - 2).toNat + 2 = w.toNat := by bv_omega

/-- A handler keeps every data register its rule does not let it write (R22). -/
theorem exec_reg_unchanged {i : Instr} {s t : State} (h : exec i s = .next t) {r : RegIx} (hr : ¬ writesReg i r) :
    t.reg r = s.reg r := by
  cases exec_effect h with
  | data hv _ => exact hv r hr
  | fault | jump | ret | call | index | delay | sound | store | wait => rfl

/-- A handler that is no jump, skip, call or return keeps the advanced `pc` (R25). -/
theorem exec_pc_unchanged {i : Instr} {s t : State} (h : exec i s = .next t) (hi : ¬ movesPc i) : t.pc = s.pc := by
  cases exec_effect h with
  | jump hm _ => exact absurd hm hi
  | ret | call => exact absurd trivial hi
  | fault | data | index | delay | sound | store | wait => rfl

/-- A checked access that does not halt the core has made its accesses (R119). -/
theorem checked_completes {i : Instr} {addrs : List Int} {s t u : State} (h : checked i addrs s t = .next u)
    (hu : u.PHASE ≠ .halted) : u = t := by
  obtain ⟨a, _, rfl⟩ | ⟨_, rfl⟩ := checked_cases h
  · exact absurd rfl hu
  · rfl

/-- A widened address is the address as a number (R83). -/
theorem toNat_wideAddr (nnn : Imm12) : (wideAddr nnn).toNat = nnn.toNat := by
  rw [wideAddr, BitVec.toNat_setWidth, Nat.mod_eq_of_lt (by omega)]

/-- The target of `JPR` as a number (R137). -/
theorem toNat_jprTarget (pc : Word) (nnn : Imm12) (v0 : Byte) :
    (jprTarget pc nnn v0).toNat = (pc.toNat + nnn.toNat + v0.toNat) % 65536 := by
  have hv : (wideByte v0).toNat = v0.toNat := by rw [wideByte, BitVec.toNat_setWidth, Nat.mod_eq_of_lt (by omega)]
  rw [jprTarget, BitVec.toNat_add, BitVec.toNat_add, toNat_wideAddr, hv, Nat.mod_add_mod]

/-- Where a skip leaves `pc` (R133). -/
@[simp] theorem State.skipIf_pc (s : State) (c : Bool) : (s.skipIf c).pc = if c = true then s.pc + 2 else s.pc := by
  rw [State.skipIf_eq, State.setPc_pc]

/-- The instructions that may write `VF`: the flag-writing ones, and those whose destination is register 15 (R22). -/
theorem writesReg_vf {i : Instr} (h : writesReg i 0xF) :
    (∃ x y, i = .add x y ∨ i = .sub x y ∨ i = .subn x y) ∨ (∃ x, i = .shr x ∨ i = .shl x) ∨ (∃ x y n, i = .drw x y n) ∨
    (∃ kk, i = .ldi 0xF kk ∨ i = .addi 0xF kk ∨ i = .rnd 0xF kk) ∨
    (∃ y, i = .mov 0xF y ∨ i = .or 0xF y ∨ i = .and 0xF y ∨ i = .xor 0xF y) ∨ i = .gdt 0xF ∨ i = .ldm 0xF := by
  cases i with
  | add | sub | subn | shr | shl | drw => simp
  | ldi x | addi x | rnd x | mov x | or x | and x | xor x | gdt x => obtain rfl : 0xF = x := h; simp
  | ldm x =>
    have hx : x = 0xF := by simp only [writesReg] at h; bv_omega
    simp [hx]
  | _ => exact h.elim

/-- Settles O17: `CALL` and `RET` move `sp` by 2 where they complete, every other effect keeps it. -/
theorem onlyCallAndRetMoveTheStackPointer : Obligations.OnlyCallAndRetMoveTheStackPointer := by
  intro i s t h
  cases exec_effect h with
  | ret hsp => exact .inr (.inr ⟨rfl, toNat_sub_two hsp.1⟩)
  | call hsp => exact .inr (.inl ⟨_, rfl, toNat_add_two hsp⟩)
  | fault | data | jump | index | delay | sound | store | wait => exact .inl rfl

/-- Settles O18: the two timer effects are those of `SDT` and `SST`. -/
theorem onlyTimerInstructionsWriteTimers : Obligations.OnlyTimerInstructionsWriteTimers := by
  intro i s t h
  cases exec_effect h with
  | delay x b => exact ⟨fun _ => ⟨x, rfl⟩, fun hne => absurd rfl hne⟩
  | sound x b => exact ⟨fun hne => absurd rfl hne, fun _ => ⟨x, rfl⟩⟩
  | fault | data | jump | ret | call | index | store | wait =>
    exact ⟨fun hne => absurd rfl hne, fun hne => absurd rfl hne⟩

/-- Settles O19: the one effect on `I` is that of `LDA`, `ADDA` and `FNT`. -/
theorem onlyIndexInstructionsWriteI : Obligations.OnlyIndexInstructionsWriteI := by
  intro i s t h hne
  cases exec_effect h with
  | index hi => exact hi
  | fault | data | jump | ret | call | delay | sound | store | wait => exact absurd rfl hne

/-- Settles O21: a register that changes is one the instruction may write, and `writesReg_vf` lists the instructions that
may write `VF`. -/
theorem onlyListedInstructionsWriteVF : Obligations.OnlyListedInstructionsWriteVF := by
  intro i s t h hne
  by_cases hw : writesReg i 0xF
  · exact writesReg_vf hw
  · exact absurd (exec_reg_unchanged h hw) hne

/-- Settles O24: the ten instructions that move `pc` one by one, the others by `exec_pc_unchanged`. -/
theorem programCounterMovesByRule : Obligations.ProgramCounterMovesByRule := by
  intro i s t _ h hrun
  cases i with
  | jp nnn => cases h; exact toNat_wideAddr nnn
  | call nnn => obtain rfl := checked_completes h hrun; exact toNat_wideAddr nnn
  | ret => obtain rfl := checked_completes h hrun; rfl
  | jpr nnn => cases h; exact toNat_jprTarget s.pc nnn (s.reg 0)
  | sei | snei | ser | sner => cases h; simp
  | skup x =>
    obtain ⟨k, hk, rfl⟩ := execSkup_cases h
    exact ⟨k, hk, by cases hp : s.keyPressed k <;> simp [skupSkips]⟩
  | skdn x =>
    obtain ⟨k, hk, rfl⟩ := execSkdn_cases h
    exact ⟨k, hk, by simp [skdnSkips]⟩
  | _ => exact exec_pc_unchanged h id

/-- Settles O12: every register reads from the replicated vector, every cell from the empty memory. -/
theorem resetStateHasTheSpecsValues : Obligations.ResetStateHasTheSpecsValues := by
  have hregs (r : RegIx) : State.reset.reg r = 0 := Vector.getElem_replicate r.isLt
  have hmem (a : Nat) : State.reset.M.read a = 0 := rfl
  exact ⟨hregs, rfl, rfl, rfl, rfl, rfl, hmem, rfl, rfl⟩

end Sys2Proof.Machine
end

/-! The invariant: what each operation on the state keeps of it, then the step -/

section
namespace Sys2Proof.Machine

/-- Taking an entry of the schedule keeps the invariant. -/
theorem State.Inv.turn {s : State} (hs : s.Inv) : s.turn.Inv := { hs with }

/-- The advance of `pc` keeps the invariant (R112). -/
theorem State.Inv.advancePc {s : State} (hs : s.Inv) : s.advancePc.Inv := { hs with }

/-- Raising a fault sets `PHASE` and `FAULT` together, and so keeps the invariant (R245). -/
theorem State.Inv.raise {s : State} (hs : s.Inv) (c : Cause) (w a : Word) : (s.raise c w a).Inv :=
  { hs with faultIffHalted := by simp }

/-- Memory may be replaced by another one in canonical form. -/
theorem State.Inv.setM {s : State} (hs : s.Inv) {m : Memory} (hm : Memory.wf m = true) : (s.setM m).Inv :=
  { hs with memory := hm }

/-- A core that has not halted may move to any other phase but `HALTED`. -/
theorem State.Inv.setPhase {s : State} (hs : s.Inv) {p : Phase} (h : s.PHASE ≠ .halted) (hp : p ≠ .halted) :
    (s.setPhase p).Inv :=
  { hs with faultIffHalted := hs.faultIffHalted.trans (iff_of_false h hp) }

/-- The tick touches the timers alone (R251). -/
theorem State.Inv.tick {s : State} (hs : s.Inv) : s.tick.Inv := by
  unfold State.tick
  split
  · exact { hs with }
  · exact hs

/-- The reset state is within the invariant: `sp` is 0x52, nothing is listed, nothing has faulted (R34). -/
theorem State.reset_inv : State.reset.Inv := ⟨rfl, rfl, rfl, by decide, by decide⟩

/-- The reset input leads back into the invariant from any state whose display is well-formed (R281). -/
theorem State.Inv.assertReset {s : State} (hs : s.Inv) : s.assertReset.Inv :=
  { State.reset_inv with display := Display.wf_clear hs.display }

/-- A host's load that is not refused has written two images that fit, and released the core (R282). -/
theorem hostLoad_cases {s t : State} (h : hostLoad s = .next t) :
    s.env.font.length ≤ Config.maxFont ∧ s.env.rom.length ≤ Config.maxRom ∧
    t = (s.setM ((s.M.writeAll Config.fontBase.toNat s.env.font).writeAll Config.programBase.toNat s.env.rom)).setPhase .run := by
  unfold hostLoad at h
  split at h
  next hfit =>
    rw [Bool.and_eq_true, fontFits, romFits, decide_eq_true_eq, decide_eq_true_eq] at hfit
    cases h
    exact ⟨hfit.1, hfit.2, rfl⟩
  · cases h

/-- The host's load keeps the invariant: images that fit end inside memory (R282). -/
theorem hostLoad_inv {s t : State} (hs : s.Inv) (hp : s.PHASE = .load) (h : hostLoad s = .next t) : t.Inv := by
  obtain ⟨hfont, hrom, rfl⟩ := hostLoad_cases h
  have hfontEnd : Config.fontBase.toNat + s.env.font.length ≤ Config.memSize := by
    rwa [show Config.fontBase.toNat = 0 from rfl, Nat.zero_add]
  have hromEnd : Config.programBase.toNat + s.env.rom.length ≤ Config.memSize := by
    rw [Config.maxRom] at hrom
    rw [show Config.programBase.toNat = 512 from rfl, Config.memSize]; omega
  exact (hs.setM (Memory.wf_writeAll (Memory.wf_writeAll hs.memory hfontEnd) hromEnd)).setPhase (by simp [hp]) (by simp)

/-- A key-wait step waits on, or writes one register and goes back to `RUN` (R184). -/
theorem keyWait_cases {x : RegIx} {s t : State} (h : keyWait x s = .next t) :
    t = s.afterKeyCurrent ∨ ∃ b, t = (s.afterKeyCurrent.setReg x b).setPhase .run := by
  unfold keyWait at h
  split at h <;> cases h
  · exact .inl rfl
  · exact .inr ⟨_, rfl⟩
  · exact .inr ⟨_, rfl⟩

/-- The key-wait step keeps the invariant. -/
theorem keyWait_inv {x : RegIx} {s t : State} (hs : s.Inv) (hp : s.PHASE = .waitKey x) (h : keyWait x s = .next t) :
    t.Inv := by
  have hwait : s.afterKeyCurrent.Inv := { hs with }
  obtain rfl | ⟨b, rfl⟩ := keyWait_cases h
  · exact hwait
  · have hreg : (s.afterKeyCurrent.setReg x b).Inv := { hwait with }
    exact hreg.setPhase (by simp [hp]) (by simp)

/-- The handler of every instruction, run in `RUN`, keeps the invariant: by kind of effect. -/
theorem exec_inv {i : Instr} {s t : State} (hs : s.Inv) (hp : s.PHASE = .run) (h : exec i s = .next t) : t.Inv := by
  have heven := hs.stackEven
  cases exec_effect h with
  | fault => exact hs.raise _ _ _
  | data _ he => exact { hs with display := he hs.display }
  | jump _ he => exact { hs with display := (congrArg Display.wf he).trans hs.display }
  | ret hsp =>
    have hsub := toNat_sub_two hsp.1
    exact { hs with
      stackEven := show (s.sp - 2).toNat % 2 = 0 by omega
      stackInRange := show (s.sp - 2).toNat ≤ 0x1000 by omega }
  | call hsp hm =>
    have hadd := toNat_add_two hsp
    exact { hs with
      memory := hm hs.memory
      stackEven := show (s.sp + 2).toNat % 2 = 0 by omega
      stackInRange := show (s.sp + 2).toNat ≤ 0x1000 by omega }
  | store _ hm => exact hs.setM (hm hs.memory)
  | wait x => exact hs.setPhase (by simp [hp]) (by simp)
  | index | delay | sound => exact { hs with }

/-- Settles O15: everything a step can do keeps the invariant. -/
theorem everyStepKeepsTheInvariant : Obligations.EveryStepKeepsTheInvariant := by
  intro s t hs h
  have ht := hs.turn
  obtain ⟨_, rfl⟩ | ⟨_, rfl⟩ | ⟨_, a, b, _, rfl⟩ | ⟨hp, _, rfl⟩ | ⟨hp, hl⟩ | ⟨_, a, _, rfl⟩ | ⟨_, r, _, rfl⟩ | ⟨hp, i, _, hx⟩ |
    ⟨x, hp, hk⟩ := step_cases h
  · exact ht.assertReset
  · exact ht.tick
  · exact ht.setM (Memory.wf_write hs.memory a.isLt b)
  · exact ht.setPhase (by simp [hp]) (by simp)
  · exact hostLoad_inv ht hp hl
  · exact ht.raise _ _ _
  · exact ht.advancePc.raise _ _ _
  · exact exec_inv ht.advancePc hp hx
  · exact keyWait_inv ht hp hk

/-- Settles O16: the case the induction over steps starts from. -/
theorem resetStateMeetsTheInvariant : Obligations.ResetStateMeetsTheInvariant := State.reset_inv

end Sys2Proof.Machine
end

/-!
The family of memory. Which instructions write memory is read off from `exec_effect`. That a store is seen by the next fetch
follows from what `STM` leaves in each cell and from what the engine's step does with the word at `pc`.
-/

section
namespace Sys2Proof.Machine

/-- Settles O20: the two effects on memory are that of `CALL` and that of `BCD` and `STM`. -/
theorem onlyStoringInstructionsWriteMemory : Obligations.OnlyStoringInstructionsWriteMemory := by
  intro i s t h hne
  cases exec_effect h with
  | call => exact .inl ⟨_, rfl⟩
  | store hi _ => exact .inr hi
  | fault | data | jump | ret | index | delay | sound | wait => exact absurd (fun _ => rfl) hne

/-! `STM` -/

/-- `STM` whose stores are all inside memory makes them, and changes nothing but memory (R216). -/
theorem exec_stm_inside {x : RegIx} {s : State} (hI : s.I.toNat + x.toNat ≤ 0x0FFF) :
    exec (.stm x) s = .next (s.setM (s.storeRegs s.I.toNat (x.toNat + 1))) :=
  checked_of_none ((dataAddresses_ok s _).mpr (.inr (by omega)))

/-- The cell `STM` stores a register to holds that register (R216). -/
theorem State.read_storeRegs_reg {s : State} (hm : Memory.wf s.M = true) {a n : Nat} (ha : a + n ≤ Config.memSize) {r : RegIx}
    (hr : r.toNat < n) : (s.storeRegs a n).read (a + r.toNat) = s.reg r := by
  rw [State.read_storeRegs hm a n ha, if_pos (by omega), Nat.add_sub_cancel_left, BitVec.ofNat_toNat, BitVec.setWidth_eq]

/-- Two registers stored one after the other read back as the word of their bytes, high byte first (R53, R216). -/
theorem State.word_storeRegs {s : State} (hm : Memory.wf s.M = true) {a n : Nat} (ha : a + n ≤ Config.memSize) (hn : n ≤ 16)
    {r : RegIx} (hr : r.toNat + 1 < n) :
    wordOfBytes ((s.storeRegs a n).read (a + r.toNat)) ((s.storeRegs a n).read (a + r.toNat + 1)) = s.reg r ++ s.reg (r + 1) := by
  have hsucc : (r + 1).toNat = r.toNat + 1 := by bv_omega
  rw [Nat.add_assoc, ← hsucc, State.read_storeRegs_reg hm ha (by omega), State.read_storeRegs_reg hm ha (by omega), wordOfBytes]

/-! The engine's step in `RUN`, by the word at `pc` -/

/-- The engine's step on a word that decodes is the handler of the instruction, run with `pc` advanced (R110 to R113). -/
theorem step_of_fetchWord_ok {s : State} {i : Instr} (he : s.nextEvent = .engine) (hp : s.PHASE = .run)
    (hpc : s.pc.toNat ≤ 0x0FFE) (hd : decode s.fetchWord = .ok i) : step s = exec i s.turn.advancePc := by
  have hin : firstOutOfRange s.turn.fetchAddresses = none := (fetchAddresses_ok s).mpr hpc
  have hdec : decode s.turn.fetchWord = .ok i := hd
  exact step_of_run_ok he hp (by simp only [State.fetchDecode, hin, hdec])

/-- The engine's step on an illegal word halts with `UnknownOpcode` and that word, `pc` already advanced (R112, R241). -/
theorem step_of_fetchWord_error {s : State} {e : Reject} (he : s.nextEvent = .engine) (hp : s.PHASE = .run)
    (hpc : s.pc.toNat ≤ 0x0FFE) (hd : decode s.fetchWord = .error e) :
    step s = .next (s.turn.advancePc.raiseUnknownOpcode s.fetchWord) := by
  have hin : firstOutOfRange s.turn.fetchAddresses = none := (fetchAddresses_ok s).mpr hpc
  have hdec : decode s.turn.fetchWord = .error e := hd
  exact step_of_run_error he hp (by simp only [State.fetchDecode, hin, hdec]; rfl)

/-- Settles O53: the word at `pc` is the two stored registers, and the engine's step goes by the word at `pc`. -/
theorem storeIsSeenByTheNextFetch : Obligations.StoreIsSeenByTheNextFetch := by
  intro x r s t hm hrun hI hr hpc h
  rw [exec_stm_inside hI] at h
  cases h
  have hend : s.I.toNat + (x.toNat + 1) ≤ Config.memSize := by rw [Config.memSize]; omega
  have hword : (s.setM (s.storeRegs s.I.toNat (x.toNat + 1))).fetchWord = s.reg r ++ s.reg (r + 1) := by
    rw [State.fetchWord, State.setM_pc, State.setM_M, hpc]
    exact State.word_storeRegs hm hend (by omega) (by omega)
  have hpc' : s.pc.toNat ≤ 0x0FFE := by omega
  refine ⟨rfl, hword, fun j hj he => ?_, fun e hbad he => ?_⟩
  · exact step_of_fetchWord_ok he hrun hpc' (hword ▸ hj)
  · exact ⟨_, step_of_fetchWord_error he hrun hpc' (hword ▸ hbad), rfl, by rw [hword]; rfl⟩

end Sys2Proof.Machine
end

/-!
The family of the encoding. The decoder on an encoded instruction is said once (`decode_encode`), format by format; the
decoder on any word is said once (`decode_answers`): an instruction, whose encoding is the word without its ignored bits,
or a rejection, and then the word is in one of the illegal sets of R91.
-/

section
namespace Sys2Proof.Machine

/-! The decoder on words put together from their fields -/

/-- Family 0x5 decodes as `SER`, whatever the low nibble (R89). -/
theorem decode_ser (x y : RegIx) (n : Nibble) : decode (0x5#4 ++ x ++ y ++ n) = .ok (.ser x y) := by
  simp only [decode, fieldFam_nibbles, fieldX_nibbles, fieldY_nibbles]

/-- Family 0x9 decodes as `SNER`, whatever the low nibble (R89). -/
theorem decode_sner (x y : RegIx) (n : Nibble) : decode (0x9#4 ++ x ++ y ++ n) = .ok (.sner x y) := by
  simp only [decode, fieldFam_nibbles, fieldX_nibbles, fieldY_nibbles]

/-- The words of family 0x8 go by their low nibble (R86). -/
theorem decode_of_family8 {op : Word} (hf : fieldFam op = 0x8#4) : decode op = decodeFamily8 op := by
  rw [decode, hf]; rfl

/-- The words of family 0xE go by their low byte (R87). -/
theorem decode_of_familyE {op : Word} (hf : fieldFam op = 0xE#4) : decode op = decodeFamilyE op := by
  rw [decode, hf]; rfl

/-- The words of family 0xF, the decoder's last arm, go by their low byte (R88). -/
theorem decode_of_familyF {op : Word} (hf : fieldFam op = 0xF#4) : decode op = decodeFamilyF op := by
  rw [decode, hf]; rfl

/-- `SHR`, whatever the `y` field (R90). -/
theorem decode_shr (x y : RegIx) : decode (0x8#4 ++ x ++ y ++ 0x6#4) = .ok (.shr x) := by
  simp only [decode_of_family8, decodeFamily8, fieldFam_nibbles, fieldN_nibbles, fieldX_nibbles]

/-- `SHL`, whatever the `y` field (R90). -/
theorem decode_shl (x y : RegIx) : decode (0x8#4 ++ x ++ y ++ 0xE#4) = .ok (.shl x) := by
  simp only [decode_of_family8, decodeFamily8, fieldFam_nibbles, fieldN_nibbles, fieldX_nibbles]

/-- The fields of an encoded instruction are read where the encoder put them, format by format (R82, R95). -/
@[simp] theorem decode_encode (i : Instr) : decode (encode i) = .ok i := by
  cases i with
  | cls | ret => rfl
  | jp nnn | call nnn | lda nnn | jpr nnn =>
    simp only [encode, decode, fieldFam_address, fieldNnn_address]
  | sei x kk | snei x kk | ldi x kk | addi x kk | rnd x kk =>
    simp only [encode, decode, fieldFam_registerByte, fieldX_registerByte, fieldKk_registerByte]
  | ser x y => exact decode_ser x y _
  | sner x y => exact decode_sner x y _
  | shr x => exact decode_shr x _
  | shl x => exact decode_shl x _
  | mov x y | or x y | and x y | xor x y | add x y | sub x y | subn x y =>
    simp only [encode, decode_of_family8, decodeFamily8, fieldFam_nibbles, fieldN_nibbles, fieldX_nibbles, fieldY_nibbles]
  | drw x y n =>
    simp only [encode, decode, fieldFam_nibbles, fieldX_nibbles, fieldY_nibbles, fieldN_nibbles]
  | skup x | skdn x =>
    simp only [encode, decode_of_familyE, decodeFamilyE, fieldFam_registerByte, fieldX_registerByte, fieldKk_registerByte]
  | gdt x | wkey x | sdt x | sst x | adda x | fnt x | bcd x | stm x | ldm x =>
    simp only [encode, decode_of_familyF, decodeFamilyF, fieldFam_registerByte, fieldX_registerByte, fieldKk_registerByte]

/-- Decoding bytes is decoding the word of the first two, and leaves the others (R53, R80). -/
theorem decodeBytes_encodeBytes_append (i : Instr) (rest : List Byte) :
    decodeBytes (encodeBytes i ++ rest) = .ok (i, rest) := by
  simp only [encodeBytes, List.cons_append, List.nil_append, decodeBytes, wordOfBytes_high_low, decode_encode]

/-! A word put together again from the fields the decoder read -/

section Fields
variable {op : Word} {f n : Nibble} {kk : Byte}

theorem address_of_fields (hf : fieldFam op = f) : f ++ fieldNnn op = op := by
  apply BitVec.eq_of_toNat_eq
  have := op.isLt
  simp only [← hf, append_toNat, fieldFam, fieldNnn, field_toNat]; omega

theorem registerByte_of_fields (hf : fieldFam op = f) (hk : fieldKk op = kk) : f ++ fieldX op ++ kk = op := by
  apply BitVec.eq_of_toNat_eq
  have := op.isLt
  simp only [← hf, ← hk, append_toNat, fieldFam, fieldX, fieldKk, field_toNat]; omega

theorem nibbles_of_fields (hf : fieldFam op = f) (hn : fieldN op = n) : f ++ fieldX op ++ fieldY op ++ n = op := by
  rw [← hf, ← hn]; exact (word_eq_nibbles op).symm

/-- The low nibble cleared (R90). -/
theorem clear_n_of_fields (hf : fieldFam op = f) : f ++ fieldX op ++ fieldY op ++ 0x0#4 = op &&& ~~~0x000F#16 := by
  have hmask : ~~~0x000F#16 = BitVec.allOnes 4 ++ BitVec.allOnes 4 ++ BitVec.allOnes 4 ++ 0x0#4 := by decide
  calc f ++ fieldX op ++ fieldY op ++ 0x0#4
      = (f ++ fieldX op ++ fieldY op ++ fieldN op) &&& ~~~0x000F#16 := by
        rw [hmask, BitVec.and_append, BitVec.and_append, BitVec.and_append]
        simp only [BitVec.and_allOnes, BitVec.and_zero]
    _ = op &&& ~~~0x000F#16 := by rw [nibbles_of_fields hf rfl]

/-- The `y` field cleared (R90). -/
theorem clear_y_of_fields (hf : fieldFam op = f) (hn : fieldN op = n) :
    f ++ fieldX op ++ 0x0#4 ++ n = op &&& ~~~0x00F0#16 := by
  have hmask : ~~~0x00F0#16 = BitVec.allOnes 4 ++ BitVec.allOnes 4 ++ 0x0#4 ++ BitVec.allOnes 4 := by decide
  calc f ++ fieldX op ++ 0x0#4 ++ n
      = (f ++ fieldX op ++ fieldY op ++ n) &&& ~~~0x00F0#16 := by
        rw [hmask, BitVec.and_append, BitVec.and_append, BitVec.and_append]
        simp only [BitVec.and_allOnes, BitVec.and_zero]
    _ = op &&& ~~~0x00F0#16 := by rw [nibbles_of_fields hf hn]

end Fields

/-! The decoder on any word -/

/-- The four illegal sets of R91, by the fields the decoder dispatches on. -/
def IllegalWord (op : Word) : Prop :=
  (fieldFam op = 0x0 ∧ op ≠ 0x00E0 ∧ op ≠ 0x00EE) ∨
  (fieldFam op = 0x8 ∧ fieldN op ∈ [0x8, 0x9, 0xA, 0xB, 0xC, 0xD, 0xF]) ∨
  (fieldFam op = 0xE ∧ fieldKk op ∉ [0x9E, 0xA1]) ∨
  (fieldFam op = 0xF ∧ fieldKk op ∉ [0x07, 0x0A, 0x15, 0x18, 0x1E, 0x29, 0x33, 0x55, 0x65])

/-- What a decoder may answer on a word: an instruction, encoded by the word's bits that are not ignored, if the word is
legal; a rejection if it is not (R90, R91). -/
inductive Answers (op : Word) : Except Reject Instr → Prop
  | instr {i : Instr} (henc : encode i = op &&& ~~~ ignoredBits i) (hlegal : ¬ IllegalWord op) : Answers op (.ok i)
  | reject {r : Reject} (hillegal : IllegalWord op) : Answers op (.error r)

/-- An instruction that ignores no bit is encoded by the whole word. -/
theorem Answers.whole {op : Word} {i : Instr} (hi : ignoredBits i = 0) (henc : encode i = op) (hlegal : ¬ IllegalWord op) :
    Answers op (.ok i) :=
  .instr (by rw [hi, henc]; exact BitVec.and_allOnes.symm) hlegal

section Families
variable {op : Word}

/-- Family 0x0 (R85). -/
theorem decodeFamily0_answers (hf : fieldFam op = 0x0) : Answers op (decodeFamily0 op) := by
  have hillegal : IllegalWord op ↔ op ≠ 0x00E0 ∧ op ≠ 0x00EE := by simp [IllegalWord, hf]
  unfold decodeFamily0
  split
  · exact .whole rfl rfl (by simp [hillegal])
  · exact .whole rfl rfl (by simp [hillegal])
  · exact .reject (hillegal.mpr ⟨‹_›, ‹_›⟩)

/-- Family 0x8 (R86). -/
theorem decodeFamily8_answers (hf : fieldFam op = 0x8) : Answers op (decodeFamily8 op) := by
  have hillegal : IllegalWord op ↔ fieldN op ∈ [0x8, 0x9, 0xA, 0xB, 0xC, 0xD, 0xF] := by simp [IllegalWord, hf]
  unfold decodeFamily8
  split
  case h_7 hn | h_9 hn => exact .instr (clear_y_of_fields hf hn) (by simp [hillegal, hn])
  case h_10 =>
    refine .reject (hillegal.mpr ?_)
    simp only [imp_false, List.mem_cons, List.not_mem_nil] at *
    bv_omega
  all_goals exact .whole rfl (nibbles_of_fields hf ‹_›) (by simp [*])

/-- Family 0xE (R87). -/
theorem decodeFamilyE_answers (hf : fieldFam op = 0xE) : Answers op (decodeFamilyE op) := by
  have hillegal : IllegalWord op ↔ fieldKk op ∉ [0x9E, 0xA1] := by simp [IllegalWord, hf]
  unfold decodeFamilyE
  split
  case h_3 => exact .reject (hillegal.mpr (by simp_all))
  all_goals exact .whole rfl (registerByte_of_fields hf ‹_›) (by simp [*])

/-- Family 0xF (R88). -/
theorem decodeFamilyF_answers (hf : fieldFam op = 0xF) : Answers op (decodeFamilyF op) := by
  have hillegal : IllegalWord op ↔ fieldKk op ∉ [0x07, 0x0A, 0x15, 0x18, 0x1E, 0x29, 0x33, 0x55, 0x65] := by
    simp [IllegalWord, hf]
  unfold decodeFamilyF
  split
  case h_10 => exact .reject (hillegal.mpr (by simp_all))
  all_goals exact .whole rfl (registerByte_of_fields hf ‹_›) (by simp [*])

end Families

/-- The decoder answers an instruction exactly on the words that are legal, and then the encoding of the instruction is the
word without its ignored bits (R84 to R91, R96). -/
theorem decode_answers (op : Word) : Answers op (decode op) := by
  unfold decode
  split
  case h_1 hf => exact decodeFamily0_answers hf
  case h_9 hf => exact decodeFamily8_answers hf
  case h_15 hf => exact decodeFamilyE_answers hf
  case h_16 => exact decodeFamilyF_answers (by simp only [imp_false] at *; bv_omega)
  case h_6 hf | h_10 hf => exact .instr (clear_n_of_fields hf) (by simp [IllegalWord, hf])
  case h_14 hf => exact .whole rfl (nibbles_of_fields hf rfl) (by simp [IllegalWord, hf])
  case h_2 hf | h_3 hf | h_11 hf | h_12 hf => exact .whole rfl (address_of_fields hf) (by simp [IllegalWord, hf])
  case h_4 hf | h_5 hf | h_7 hf | h_8 hf | h_13 hf =>
    exact .whole rfl (registerByte_of_fields hf rfl) (by simp [IllegalWord, hf])

/-- The illegal sets of R91, by the value of the word. -/
theorem illegalWord_iff_toNat (op : Word) : IllegalWord op ↔
    (op.toNat / 4096 = 0x0 ∧ op.toNat ≠ 0x00E0 ∧ op.toNat ≠ 0x00EE) ∨
    (op.toNat / 4096 = 0x8 ∧ op.toNat % 16 ∈ [0x8, 0x9, 0xA, 0xB, 0xC, 0xD, 0xF]) ∨
    (op.toNat / 4096 = 0xE ∧ op.toNat % 256 ∉ [0x9E, 0xA1]) ∨
    (op.toNat / 4096 = 0xF ∧ op.toNat % 256 ∉ [0x07, 0x0A, 0x15, 0x18, 0x1E, 0x29, 0x33, 0x55, 0x65]) := by
  have hfam : (fieldFam op).toNat = op.toNat / 4096 := by rw [fieldFam, field_toNat]; omega
  have hn : (fieldN op).toNat = op.toNat % 16 := by rw [fieldN, field_toNat]; omega
  have hkk : (fieldKk op).toNat = op.toNat % 256 := by rw [fieldKk, field_toNat]; omega
  simp [IllegalWord, ← hfam, ← hn, ← hkk, BitVec.toNat_eq]

/-- Settles O1, by the decoder on each format of the encoder's words and the word of two bytes. -/
theorem decodeOfEncodeIsTheInstruction : Obligations.DecodeOfEncodeIsTheInstruction := fun i _ =>
  ⟨decode_encode i, decodeBytes_encodeBytes_append i⟩

/-- Settles O2, by the decoder's answer on any word. -/
theorem encodeOfDecodeClearsIgnoredBits : Obligations.EncodeOfDecodeClearsIgnoredBits := by
  intro op i h
  have hans : Answers op (.ok i) := h ▸ decode_answers op
  cases hans with
  | instr henc _ => exact henc

/-- Settles O3, by the decoder on words put together from four nibbles. -/
theorem lowNibbleOfFamilies5And9Ignored : Obligations.LowNibbleOfFamilies5And9Ignored := fun x y n =>
  ⟨decode_ser x y n, decode_sner x y n, rfl, rfl⟩

/-- Settles O4, by the decoder's answer on any word. -/
theorem illegalWordsAreTheFourSets : Obligations.IllegalWordsAreTheFourSets := by
  intro op
  rw [← illegalWord_iff_toNat]
  have hans := decode_answers op
  cases hd : decode op with
  | ok i =>
    rw [hd] at hans
    cases hans with
    | instr _ hlegal => exact ⟨fun ⟨_, h⟩ => (nomatch h), fun h => absurd h hlegal⟩
  | error r =>
    rw [hd] at hans
    cases hans with
    | reject hillegal => exact ⟨fun _ => hillegal, fun _ => ⟨r, rfl⟩⟩

/-- Settles O5: the example words are the encodings of the instructions named. -/
theorem sourceExampleWordsDecode : Obligations.SourceExampleWordsDecode :=
  ⟨decode_encode (.ldi 0 0x05), decode_encode (.addi 0 0x03), decode_encode .ret, decode_encode .cls, fun x kk =>
    ⟨decode_encode (.ldi x kk), decode_encode (.ldi x 0x00), decode_encode (.addi x 0x00), decode_encode (.wkey x)⟩⟩

end Sys2Proof.Machine
end

/-!
The family of fetch and execute. The engine's step by where `pc` points, the halted core, the trace word of a step, and the
one effect by which a handler halts the core.
-/

section
namespace Sys2Proof.Machine

/-! The fetch -/

/-- Settles O6: the engine's step on a word that decodes, with `pc` advanced without wrapping. -/
theorem stepRunsTheDecodedInstruction : Obligations.StepRunsTheDecodedInstruction := by
  intro s i hp he hpc hd
  exact ⟨toNat_add_two hpc, step_of_fetchWord_ok he hp hpc hd⟩

/-- The first bad address of a fetch outside memory, as a fault record holds it (R111, R242). -/
theorem State.firstOutOfRange_fetchAddresses {s : State} (hpc : 0x0FFE < s.pc.toNat) :
    ∃ a, firstOutOfRange s.fetchAddresses = some a ∧
      BitVec.ofInt 16 a = if s.pc.toNat = 0x0FFF then 0x1000 else s.pc := by
  refine ⟨((max s.pc.toNat 4096 : Nat) : Int), ?_, ?_⟩
  · rw [State.fetchAddresses, firstOutOfRange_addressesFrom, if_neg (by omega)]
  · rw [BitVec.ofInt_natCast]
    split
    next hlast => rw [hlast]; rfl
    next hbeyond => rw [Nat.max_eq_left (by omega), BitVec.ofNat_toNat, BitVec.setWidth_eq]

/-- The engine's step whose fetch is not all in memory halts with a `MemoryFault` of no instruction, `pc` not advanced
(R111). -/
theorem step_of_fetch_outside {s : State} {a : Int} (he : s.nextEvent = .engine) (hp : s.PHASE = .run)
    (ha : firstOutOfRange s.fetchAddresses = some a) : step s = .next (s.turn.raiseMemoryFault 0x0000 a) := by
  have hout : firstOutOfRange s.turn.fetchAddresses = some a := ha
  exact step_of_run_error he hp (by simp only [State.fetchDecode, hout])

/-- Settles O8: the address the fetch fault records is 1000 for `pc` = 0FFF, where the first byte is still in memory, and
`pc` above it. -/
theorem fetchOutsideMemoryHaltsTheCore : Obligations.FetchOutsideMemoryHaltsTheCore := by
  intro s hp he hpc
  obtain ⟨a, ha, haddr⟩ := State.firstOutOfRange_fetchAddresses hpc
  rw [step_of_fetch_outside he hp ha, ← haddr]
  rfl

/-! The halted core -/

/-- The tick is disabled in `HALTED` (R115, R251). -/
theorem State.tick_of_halted {s : State} (hp : s.PHASE = .halted) : s.tick = s := by
  simp only [State.tick, State.timersRun, hp, Bool.false_eq_true, if_false]

/-- A step in `HALTED` that answers a next state is the reset input, or a tick that does nothing (R115, R246). -/
theorem step_cases_of_halted {s t : State} (hp : s.PHASE = .halted) (h : step s = .next t) :
    s.nextEvent = .reset ∨ (s.nextEvent = .tick ∧ t = s.turn) := by
  have htick : s.turn.tick = s.turn := State.tick_of_halted hp
  obtain ⟨he, _⟩ | ⟨he, rfl⟩ | ⟨hp', _⟩ | ⟨hp', _⟩ | ⟨hp', _⟩ | ⟨hp', _⟩ | ⟨hp', _⟩ | ⟨hp', _⟩ | ⟨_, hp', _⟩ := step_cases h
  · exact .inl he
  · exact .inr ⟨he, htick⟩
  all_goals exact absurd (hp.symm.trans hp') nofun

/-- Settles O9: of the two inputs that have a next state in `HALTED`, the tick stays there. -/
theorem haltedCoreIsFrozen : Obligations.HaltedCoreIsFrozen := by
  intro s hp
  refine ⟨fun he => step_of_halted he hp, fun he => ?_, fun t h ht => ?_⟩
  · have htick : s.turn.tick = s.turn := State.tick_of_halted hp
    rw [step_of_tick he, htick]
    rfl
  · obtain he | ⟨_, rfl⟩ := step_cases_of_halted hp h
    · exact he
    · exact absurd hp ht

/-! The trace word -/

/-- The trace of an engine step is that of the phases before and after it (R114). -/
theorem traceWord_of_engine {s t : State} (he : s.nextEvent = .engine) (h : step s = .next t) :
    traceWord s = traceAfter s t := by
  simp only [traceWord, he, h]

/-- An instruction cycle that completes is traced with the word fetched (R114). -/
theorem traceAfter_of_completed {s t : State} (hs : s.PHASE = .run) (ht : t.PHASE = .run) :
    traceAfter s t = some s.fetchWord := by
  simp only [traceAfter, hs, ht]

/-- A key wait that ends is traced with the word of its `WKEY` (R184). -/
theorem traceAfter_of_waitKey {s t : State} {x : RegIx} (hs : s.PHASE = .waitKey x) (ht : t.PHASE = .run) :
    traceAfter s t = some (encode (.wkey x)) := by
  simp only [traceAfter, hs, ht]

/-- A step that does not leave the core in `RUN` is not traced (R114). -/
theorem traceAfter_eq_none {s t : State} (ht : t.PHASE ≠ .run) : traceAfter s t = none := by
  unfold traceAfter
  split
  next hrun => exact absurd hrun ht
  next hrun => exact absurd hrun ht
  next => rfl

/-- Settles O14: by the phases before and after the step. -/
theorem traceWordOfACompletedCycle : Obligations.TraceWordOfACompletedCycle := by
  intro s t he h
  rw [traceWord_of_engine he h]
  exact ⟨traceAfter_of_completed, fun _ => traceAfter_eq_none, fun _ => traceAfter_of_waitKey, fun _ _ => traceAfter_eq_none⟩

/-! The faults of the handlers -/

/-- Settles O22: of the effects a handler can have, the fault alone leads from `RUN` to `HALTED`. -/
theorem handlerFaultsArePrecise : Obligations.HandlerFaultsArePrecise := by
  intro i s t hrun h hhalted
  have hnot : s.PHASE ≠ .halted := by simp [hrun]
  cases exec_effect h with
  | fault hi => exact ⟨hi, _, rfl⟩
  | wait x => exact nomatch hhalted
  | data | jump | ret | call | index | delay | sound | store => exact absurd hhalted hnot

end Sys2Proof.Machine
end

/-!
The family of control flow. A jump and a skip write `pc` and nothing else; `CALL` and `RET` are each said by two equations, one
for a stack access inside memory and one for the fault, and the round trip rests on the first two.
-/

section
namespace Sys2Proof.Machine

/-! The stack -/

/-- The low byte as a number. -/
theorem toNat_lowByte (w : Word) : (lowByte w).toNat = w.toNat % 256 := by
  rw [lowByte, field_toNat]; omega

/-- The high byte as a number. -/
theorem toNat_highByte (w : Word) : (highByte w).toNat = w.toNat / 256 := by
  have := w.isLt
  rw [highByte, field_toNat]; omega

/-- What a push of two bytes leaves in each cell (R132). -/
theorem Memory.read_push {m : Memory} (hm : Memory.wf m = true) {a : Nat} (ha : a ≤ 0x0FFE) (b c : Byte) (d : Nat) :
    ((m.write a b).write (a + 1) c).read d = if d = a + 1 then c else if d = a then b else m.read d := by
  have ha' : a < Config.memSize := by rw [Config.memSize]; omega
  rw [Memory.read_write (Memory.wf_write hm ha' b), Memory.read_write hm]

/-- The memory of a state with its `pc` pushed on the stack, low byte first (R132). -/
def State.pushedPc (s : State) : Memory := (s.M.write s.sp.toNat (lowByte s.pc)).write (s.sp.toNat + 1) (highByte s.pc)

section Push
variable {s : State} (hm : Memory.wf s.M = true) (hsp : s.sp.toNat ≤ 0x0FFE)
include hm hsp

/-- The lower of the two pushed bytes. -/
theorem State.read_pushedPc_low : s.pushedPc.read s.sp.toNat = lowByte s.pc := by
  rw [State.pushedPc, Memory.read_push hm hsp, if_neg (by omega), if_pos rfl]

/-- The upper of the two pushed bytes. -/
theorem State.read_pushedPc_high : s.pushedPc.read (s.sp.toNat + 1) = highByte s.pc := by
  rw [State.pushedPc, Memory.read_push hm hsp, if_pos rfl]

/-- A push leaves every other byte. -/
theorem State.read_pushedPc_other {d : Nat} (hd : ¬ (s.sp.toNat ≤ d ∧ d < s.sp.toNat + 2)) :
    s.pushedPc.read d = s.M.read d := by
  rw [State.pushedPc, Memory.read_push hm hsp, if_neg (by omega), if_neg (by omega)]

end Push

/-- `CALL` whose push is inside memory (R132). -/
theorem exec_call_inside {nnn : Imm12} {s : State} (hsp : s.sp.toNat ≤ 0x0FFE) :
    exec (.call nnn) s = .next (((s.setM s.pushedPc).setSp (s.sp + 2)).setPc (wideAddr nnn)) :=
  checked_of_none ((pushAddresses_ok s).mpr hsp)

/-- `CALL` whose push is not all inside memory: a push checks the addresses a fetch at `sp` checks (R58). -/
theorem exec_call_outside {nnn : Imm12} {s : State} (hsp : 0x0FFE < s.sp.toNat) :
    exec (.call nnn) s = .next (haltedBy s (.call nnn) (if s.sp.toNat = 0x0FFF then 0x1000 else s.sp)) := by
  obtain ⟨a, ha, haddr⟩ := State.firstOutOfRange_fetchAddresses (s := s.setPc s.sp) hsp
  have hpush : firstOutOfRange s.pushAddresses = some a := ha
  rw [State.setPc_pc] at haddr
  rw [← haddr]
  exact checked_of_some hpush

/-- `RET` whose pop is inside memory (R130). -/
theorem exec_ret_inside {s : State} (hsp : 2 ≤ s.sp.toNat ∧ s.sp.toNat ≤ 0x1000) :
    exec .ret s = .next ((s.setSp (s.sp - 2)).setPc
      (wordOfBytes (s.M.read (s.sp.toNat - 1)) (s.M.read (s.sp.toNat - 2)))) :=
  checked_of_none ((popAddresses_ok s).mpr hsp)

/-- The address of a pop's fault as the fault record holds it (R130, R242). -/
theorem ofInt_pop_address (sp : Word) :
    BitVec.ofInt 16 (if sp.toNat < 2 then -1 else (sp.toNat : Int) - 1) = if sp.toNat < 2 then 0xFFFF else sp - 1 := by
  split
  next => rfl
  next =>
    have hpos : (sp.toNat : Int) - 1 = ((sp.toNat - 1 : Nat) : Int) := by omega
    rw [hpos, BitVec.ofInt_natCast]
    bv_omega

/-- `RET` whose pop is not all inside memory (R130). -/
theorem exec_ret_outside {s : State} (hsp : ¬ (2 ≤ s.sp.toNat ∧ s.sp.toNat ≤ 0x1000)) :
    exec .ret s = .next (haltedBy s .ret (if s.sp.toNat < 2 then 0xFFFF else s.sp - 1)) := by
  have hpop := firstOutOfRange_popAddresses s
  rw [if_neg hsp] at hpop
  rw [← ofInt_pop_address]
  exact checked_of_some hpop

/-- Settles O26: the push inside memory and the fault, each by the equation of `CALL` for it. -/
theorem callPushesReturnAddress : Obligations.CallPushesReturnAddress := by
  refine ⟨fun nnn => decode_encode (.call nnn), fun nnn s hm => ⟨fun hsp => ?_, exec_call_outside⟩⟩
  have hlow : (s.pushedPc.read s.sp.toNat).toNat = s.pc.toNat % 256 := by
    rw [State.read_pushedPc_low hm hsp, toNat_lowByte]
  have hhigh : (s.pushedPc.read (s.sp.toNat + 1)).toNat = s.pc.toNat / 256 := by
    rw [State.read_pushedPc_high hm hsp, toNat_highByte]
  exact ⟨_, exec_call_inside hsp, hlow, hhigh, toNat_add_two hsp, toNat_wideAddr nnn,
    fun _ => State.read_pushedPc_other hm hsp, fun _ _ => rfl, rfl, ⟨rfl, rfl, rfl, rfl⟩, rfl⟩

/-- Settles O27: the pop inside memory and the fault, each by the equation of `RET` for it. -/
theorem returnPopsAddress : Obligations.ReturnPopsAddress := by
  refine ⟨decode_encode .ret, fun s => ⟨fun hsp => ?_, exec_ret_outside⟩⟩
  exact ⟨_, exec_ret_inside hsp, append_toNat _ _, Nat.eq_sub_of_add_eq (toNat_sub_two hsp.1),
    fun _ => rfl, fun _ _ => rfl, rfl, ⟨rfl, rfl, rfl, rfl⟩, rfl⟩

/-- Settles O28: the bytes popped are the two bytes pushed, and those put `pc` together again. -/
theorem callThenReturnComesBack : Obligations.CallThenReturnComesBack := by
  intro nnn s t u hm hsp hcall hu hlow hhigh
  rw [exec_call_inside hsp] at hcall
  cases hcall
  have husp : u.sp.toNat = s.sp.toNat + 2 := hu ▸ toNat_add_two hsp
  have hpc : wordOfBytes (u.M.read (u.sp.toNat - 1)) (u.M.read (u.sp.toNat - 2)) = s.pc := by
    rw [husp, Nat.add_sub_cancel, show s.sp.toNat + 2 - 1 = s.sp.toNat + 1 from rfl, hlow, hhigh]
    exact (congrArg₂ wordOfBytes (State.read_pushedPc_high hm hsp) (State.read_pushedPc_low hm hsp)).trans
      (wordOfBytes_high_low s.pc)
  have hback : u.sp - 2 = s.sp := hu ▸ BitVec.add_sub_cancel s.sp 2
  exact ⟨_, exec_ret_inside (by omega), hpc, hback, fun _ => rfl⟩

/-! Jumps and skips -/

/-- A write of `pc` changes nothing else (R24). -/
theorem State.jumpFrame_setPc (s : State) (w : Word) : JumpFrame s (s.setPc w) :=
  ⟨fun _ _ => rfl, rfl, rfl, ⟨rfl, rfl, rfl, rfl⟩, fun _ => rfl, rfl⟩

/-- A skip changes nothing but `pc` (R133). -/
theorem State.jumpFrame_skipIf (s : State) (c : Bool) : JumpFrame s (s.skipIf c) := by
  rw [State.skipIf_eq]; exact s.jumpFrame_setPc _

/-- Where a skip on equality leaves `pc` (R133, R135). -/
theorem State.skipIf_eq_pc (s : State) (a b : Byte) :
    (s.skipIf (decide (a = b))).pc = if a = b then s.pc + 2 else s.pc := by
  simp only [State.skipIf_pc, decide_eq_true_eq]

/-- Where a skip on difference leaves `pc` (R134, R136). -/
theorem State.skipIf_ne_pc (s : State) (a b : Byte) :
    (s.skipIf (decide (a ≠ b))).pc = if a = b then s.pc else s.pc + 2 := by
  simp only [State.skipIf_pc, decide_eq_true_eq, ne_eq, ite_not]

/-- Settles O25: `JP` writes the widened target to `pc`. -/
theorem jumpSetsPc : Obligations.JumpSetsPc :=
  ⟨fun nnn => decode_encode (.jp nnn), fun nnn s => ⟨_, rfl, toNat_wideAddr nnn, s.jumpFrame_setPc _⟩⟩

/-- Settles O29: both are a skip, on equality and on difference with the immediate. -/
theorem skipOnImmediateCompare : Obligations.SkipOnImmediateCompare :=
  ⟨fun x kk => ⟨decode_encode (.sei x kk), decode_encode (.snei x kk)⟩, fun _ _ s =>
    ⟨⟨_, rfl, s.skipIf_eq_pc _ _, s.jumpFrame_skipIf _⟩, ⟨_, rfl, s.skipIf_ne_pc _ _, s.jumpFrame_skipIf _⟩⟩⟩

/-- Settles O30: both are a skip, on equality and on difference of the two registers. -/
theorem skipOnRegisterCompare : Obligations.SkipOnRegisterCompare :=
  ⟨fun x y n => ⟨decode_ser x y n, decode_sner x y n⟩, fun _ _ s =>
    ⟨⟨_, rfl, s.skipIf_eq_pc _ _, s.jumpFrame_skipIf _⟩, ⟨_, rfl, s.skipIf_ne_pc _ _, s.jumpFrame_skipIf _⟩⟩⟩

/-- Settles O31: `JPR` writes its named target formula to `pc`. -/
theorem jumpRelativeAddsV0 : Obligations.JumpRelativeAddsV0 :=
  ⟨fun nnn => decode_encode (.jpr nnn), fun nnn s => ⟨_, rfl, toNat_jprTarget s.pc nnn _, s.jumpFrame_setPc _⟩⟩

end Sys2Proof.Machine
end

/-!
The family of loads and arithmetic. A frame grows with each register write (`RegisterFrame.setReg`), a result and a flag are
read back by the two writes they come from (R118), and the flag formulas are said as arithmetic on the operands.
-/

section
namespace Sys2Proof.Machine

/-! Reads after a register or a flag write -/

/-- The register written reads as the byte written (R21). -/
@[simp] theorem State.reg_setReg_self (s : State) (x : RegIx) (b : Byte) : (s.setReg x b).reg x = b := by
  rw [State.reg_setReg, if_pos rfl]

/-- A register other than the one written reads as before (R21). -/
theorem State.reg_setReg_of_ne (s : State) {x r : RegIx} (h : r ≠ x) (b : Byte) : (s.setReg x b).reg r = s.reg r := by
  rw [State.reg_setReg, if_neg h]

/-- A register other than `VF` reads as before a flag write (R22). -/
theorem State.reg_setFlag_of_ne (s : State) {r : RegIx} (h : r ≠ 0xF) (c : Bool) : (s.setFlag c).reg r = s.reg r :=
  s.reg_setReg_of_ne h _

/-- The flag reads as exactly 0 or 1 (R22). -/
@[simp] theorem State.toNat_flag (s : State) (c : Bool) : ((s.setFlag c).reg 0xF).toNat = c.toNat := by
  rw [State.reg_setFlag, if_pos rfl]
  cases c <;> rfl

/-! Frames -/

/-- Doing nothing changes nothing. -/
theorem RegisterFrame.refl (rs : List RegIx) (s : State) : RegisterFrame rs s s :=
  ⟨fun _ _ => rfl, rfl, rfl, rfl, ⟨rfl, rfl, rfl, rfl⟩, fun _ => rfl, rfl⟩

/-- One more write, of a register the frame leaves open, keeps the frame. -/
theorem RegisterFrame.setReg {rs : List RegIx} {s t : State} (h : RegisterFrame rs s t) {x : RegIx} (hx : x ∈ rs) (b : Byte) :
    RegisterFrame rs s (t.setReg x b) :=
  { h with
    regs := fun r hr => (t.reg_setReg_of_ne (ne_of_mem_of_not_mem hx hr).symm b).trans (h.regs r hr)
    control := { h.control with } }

/-- An instruction whose one write is a register changes no other state. -/
theorem State.registerFrame_setReg (s : State) (x : RegIx) (b : Byte) : RegisterFrame [x] s (s.setReg x b) :=
  (RegisterFrame.refl [x] s).setReg (by simp) b

/-- A result, then a flag (R118). -/
theorem State.registerFrame_result_flag (s : State) (x : RegIx) (b : Byte) (c : Bool) :
    RegisterFrame [x, 0xF] s ((s.setReg x b).setFlag c) :=
  ((RegisterFrame.refl [x, 0xF] s).setReg (by simp) b).setReg (by simp [vf]) _

/-- A flag, then a result (R118). -/
theorem State.registerFrame_flag_result (s : State) (x : RegIx) (c : Bool) (b : Byte) :
    RegisterFrame [x, 0xF] s ((s.setFlag c).setReg x b) :=
  ((RegisterFrame.refl [x, 0xF] s).setReg (by simp [vf]) _).setReg (by simp) b

/-- A result in another register than `VF` survives the flag write after it. -/
theorem State.reg_result_flag (s : State) {x : RegIx} (hx : x ≠ 0xF) (b : Byte) (c : Bool) :
    ((s.setReg x b).setFlag c).reg x = b := by
  rw [State.reg_setFlag_of_ne _ hx, State.reg_setReg_self]

/-- A write of the index register changes nothing else (R23). -/
theorem State.indexFrame_setI (s : State) (w : Word) : IndexFrame s (s.setI w) :=
  ⟨fun _ _ => rfl, rfl, rfl, ⟨rfl, rfl, rfl, rfl⟩, fun _ => rfl, rfl⟩

/-! Results and flags as arithmetic -/

/-- The difference modulo 256 (R157, R159). -/
theorem toNat_sub_byte (a b : Byte) :
    (a - b).toNat = if a.toNat < b.toNat then 256 + a.toNat - b.toNat else a.toNat - b.toNat := by
  have ha := a.isLt
  rw [BitVec.toNat_sub]
  split <;> omega

/-- The logical shift to the right by one (R158). -/
theorem toNat_shiftRight_one (a : Byte) : (a >>> 1).toNat = a.toNat / 2 := by
  rw [BitVec.toNat_ushiftRight, Nat.shiftRight_eq_div_pow, pow_one]

/-- The shift to the left by one (R160). -/
theorem toNat_shiftLeft_one (a : Byte) : (a <<< 1).toNat = 2 * a.toNat % 256 := by
  rw [BitVec.toNat_shiftLeft, Nat.shiftLeft_eq, pow_one, Nat.mul_comm]

/-- `ADD`'s flag (R156). -/
theorem toNat_carry (a b : Byte) : (carry a b).toNat = if 255 < a.toNat + b.toNat then 1 else 0 := by
  rw [carry, Bool.toNat, Bool.cond_decide]

/-- The flag of a subtraction: 0 when it borrows (R157, R159). -/
theorem toNat_notBorrow (a b : Byte) : (notBorrow a b).toNat = if a.toNat < b.toNat then 0 else 1 := by
  simp only [notBorrow, Bool.toNat, Bool.cond_decide, ← Nat.not_le, ite_not]

/-- `SHR`'s flag, bit 0 (R158). -/
theorem toNat_shiftedOutRight (a : Byte) : (shiftedOutRight a).toNat = a.toNat % 2 := by
  rw [shiftedOutRight, BitVec.getLsbD, Nat.toNat_testBit, pow_zero, Nat.div_one]

/-- `SHL`'s flag, bit 7 (R160). -/
theorem toNat_shiftedOutLeft (a : Byte) : (shiftedOutLeft a).toNat = a.toNat / 128 := by
  have ha := a.isLt
  rw [shiftedOutLeft, BitVec.getLsbD, Nat.toNat_testBit]
  omega

/-- A flag shifted out to the right is gone: `SHR VF` (R158, R164). -/
theorem State.flag_shiftRight_one (s : State) (c : Bool) : (s.setFlag c).reg 0xF >>> 1 = 0 := by
  have hc := c.toNat_lt
  apply BitVec.eq_of_toNat_eq
  rw [toNat_shiftRight_one, State.toNat_flag]
  exact Nat.div_eq_of_lt hc

/-! The random source -/

/-- The random byte is the first one the source holds, where it holds one (R162). -/
theorem State.randomByte_of_cons {s : State} {r : Byte} {rest : List Byte} (h : s.env.random = r :: rest) :
    s.randomByte = r := by
  rw [State.randomByte, h, List.headD_cons]

/-- A checked access whose accesses consume no random byte consumes none when it faults, either. -/
theorem checked_random_unchanged {i : Instr} {addrs : List Int} {s t u : State} (h : checked i addrs s t = .next u)
    (ht : t.env.random = s.env.random) : u.env.random = s.env.random := by
  obtain ⟨_, _, rfl⟩ | ⟨_, rfl⟩ := checked_cases h
  · rfl
  · exact ht

/-- A skip consumes no random byte. -/
theorem State.skipIf_random (s : State) (c : Bool) : (s.skipIf c).env.random = s.env.random :=
  congrArg Env.random (s.jumpFrame_skipIf c).env

/-- `RND` alone consumes a random byte (R162). -/
theorem exec_random_unchanged {i : Instr} {s t : State} (h : exec i s = .next t) (hi : ∀ x kk, i ≠ .rnd x kk) :
    t.env.random = s.env.random := by
  cases i with
  | rnd x kk => exact absurd rfl (hi x kk)
  | ret | call | bcd | stm | drw => exact checked_random_unchanged h rfl
  | ldm x =>
    obtain ⟨v, hv⟩ := s.loadRegs_rest s.I.toNat (x.toNat + 1)
    exact checked_random_unchanged h (by rw [hv])
  | skup x => obtain ⟨k, _, rfl⟩ := execSkup_cases h; exact State.skipIf_random _ _
  | skdn x => obtain ⟨k, _, rfl⟩ := execSkdn_cases h; exact State.skipIf_random _ _
  | sei | snei | ser | sner => cases h; exact State.skipIf_random _ _
  | _ => cases h; rfl

/-! The draw -/

/-- The state after `n` rows of the sprite at `I` have been drawn with their origin at `(vx, vy)` (R181). -/
def State.drawSprite (s : State) (n : Nibble) (vx vy : Byte) : State :=
  (s.setDisplay (s.env.display.draw (s.M.readAll s.I.toNat n.toNat) vx vy).1).setFlag
    (s.env.display.draw (s.M.readAll s.I.toNat n.toNat) vx vy).2

/-- `DRW` draws at the values its coordinate registers hold before `VF` is written (R164, R181). -/
theorem exec_drw (x y : RegIx) (n : Nibble) (s : State) :
    exec (.drw x y n) s =
      checked (.drw x y n) (s.dataAddresses n.toNat) s (s.drawSprite n (s.reg x) (s.reg y)) := rfl

/-- A draw that does not halt the core is the draw that any registers of the same values give (R164). -/
theorem exec_drw_congr {x y x' y' : RegIx} {n : Nibble} {s t : State} (hx : s.reg x = s.reg x') (hy : s.reg y = s.reg y')
    (h : exec (.drw x y n) s = .next t) (ht : t.PHASE ≠ .halted) : exec (.drw x' y' n) s = .next t := by
  obtain ⟨_, _, rfl⟩ | ⟨hok, rfl⟩ := checked_cases h
  · exact absurd rfl ht
  · rw [exec_drw, ← hx, ← hy]
    exact checked_of_none hok

/-! The obligations -/

/-- Settles O34: each is one register write, of the bitwise operation. -/
theorem logicOperationsAreBitwise : Obligations.LogicOperationsAreBitwise := by
  refine ⟨fun x y => ⟨decode_encode (.or x y), decode_encode (.and x y), decode_encode (.xor x y)⟩, fun x y s =>
    ⟨⟨_, rfl, fun k => ?_, s.registerFrame_setReg x _⟩, ⟨_, rfl, fun k => ?_, s.registerFrame_setReg x _⟩,
      ⟨_, rfl, fun k => ?_, s.registerFrame_setReg x _⟩⟩⟩
  · rw [State.reg_setReg_self, BitVec.getLsbD_or]
  · rw [State.reg_setReg_self, BitVec.getLsbD_and]
  · rw [State.reg_setReg_self, BitVec.getLsbD_xor, Bool.bne_eq_xor]

/-- Settles O35: the sum is written, then the carry. -/
theorem addSetsCarry : Obligations.AddSetsCarry := by
  refine ⟨fun x y => decode_encode (.add x y), fun x y s =>
    ⟨_, rfl, fun hx => ?_, ?_, s.registerFrame_result_flag x _ _⟩⟩
  · rw [State.reg_result_flag s hx, BitVec.toNat_add]
  · rw [State.toNat_flag, toNat_carry]

/-- Settles O36: the difference is written, then the flag; `SUBN` has the operands exchanged. -/
theorem subtractionsSetNotBorrow : Obligations.SubtractionsSetNotBorrow := by
  refine ⟨fun x y => ⟨decode_encode (.sub x y), decode_encode (.subn x y)⟩, fun x y s =>
    ⟨⟨_, rfl, fun hx => ?_, ?_, s.registerFrame_result_flag x _ _⟩,
      ⟨_, rfl, fun hx => ?_, ?_, s.registerFrame_result_flag x _ _⟩⟩⟩
  · rw [State.reg_result_flag s hx, toNat_sub_byte]
  · rw [State.toNat_flag, toNat_notBorrow]
  · rw [State.reg_result_flag s hx, toNat_sub_byte]
  · rw [State.toNat_flag, toNat_notBorrow]

/-- Settles O37: the flag is written first, and the shift that follows reads it where `x = 15` (R118). -/
theorem shiftsSetTheBitShiftedOut : Obligations.ShiftsSetTheBitShiftedOut := by
  refine ⟨fun x y => ⟨decode_shr x y, decode_shl x y⟩, fun x s =>
    ⟨⟨_, rfl, fun hx => ⟨?_, ?_⟩, ?_, s.registerFrame_flag_result x _ _⟩,
      ⟨_, rfl, fun hx => ⟨?_, ?_⟩, ?_, s.registerFrame_flag_result x _ _⟩⟩⟩
  · rw [State.reg_setReg_self, State.reg_setFlag_of_ne s hx, toNat_shiftRight_one]
  · rw [State.reg_setReg_of_ne _ hx.symm, State.toNat_flag, toNat_shiftedOutRight]
  · rintro rfl
    rw [State.reg_setReg_self, State.flag_shiftRight_one]
  · rw [State.reg_setReg_self, State.reg_setFlag_of_ne s hx, toNat_shiftLeft_one]
  · rw [State.reg_setReg_of_ne _ hx.symm, State.toNat_flag, toNat_shiftedOutLeft]
  · rintro rfl
    have hVF := (s.reg 0xF).isLt
    rw [State.reg_setReg_self, toNat_shiftLeft_one, State.toNat_flag, toNat_shiftedOutLeft]
    split <;> omega

/-- Settles O38: the rows of the table are the case `x = 15` of O35, O36 and O37, and a draw depends on the coordinate
registers by their values alone. -/
theorem flagAsDestinationFollowsTheTable : Obligations.FlagAsDestinationFollowsTheTable := by
  refine ⟨fun y s => ?_, fun x y x' y' n s t t' hx hy _ h ht h' => ?_⟩
  · obtain ⟨t, hadd, _, hcarry, _⟩ := addSetsCarry.2 0xF y s
    obtain ⟨⟨u, hsub, _, hflag, _⟩, ⟨v, hsubn, _, hflagn, _⟩⟩ := subtractionsSetNotBorrow.2 0xF y s
    obtain ⟨⟨w, hshr, _, hzero, _⟩, ⟨z, hshl, _, htwo, _⟩⟩ := shiftsSetTheBitShiftedOut.2 0xF s
    simp only [← Nat.not_le, ite_not] at hflag hflagn
    exact ⟨⟨t, hadd, hcarry⟩, ⟨u, hsub, hflag⟩, ⟨v, hsubn, hflagn⟩, ⟨w, hshr, congrArg BitVec.toNat (hzero rfl)⟩,
      ⟨z, hshl, htwo rfl⟩⟩
  · rw [exec_drw_congr hx hy h ht] at h'
    cases h'
    exact ⟨rfl, rfl⟩

/-- Settles O40: the byte drawn is masked, and no handler but `RND`'s touches the random source. -/
theorem randomByteIsMasked : Obligations.RandomByteIsMasked := by
  refine ⟨fun x kk => decode_encode (.rnd x kk), fun i s t h hne => ?_, fun x kk s => ?_⟩
  · by_contra hno
    exact hne (exec_random_unchanged h fun x kk e => hno ⟨x, kk, e⟩)
  · have hreg : (s.afterRandom.setReg x (kk &&& s.randomByte)).reg x = kk &&& s.randomByte := State.reg_setReg_self _ _ _
    have hframe := s.afterRandom.registerFrame_setReg x (kk &&& s.randomByte)
    refine ⟨_, s.randomByte, rfl, hreg, fun k hk => ?_, fun _ _ => State.randomByte_of_cons, rfl, hframe.regs, rfl, rfl, rfl,
      ⟨rfl, rfl, rfl, rfl⟩, hframe.memory⟩
    rw [hreg, BitVec.getLsbD_and, hk, Bool.false_and]

/-- Settles O32: each is one register write. -/
theorem loadsAndMovesWriteOneRegister : Obligations.LoadsAndMovesWriteOneRegister :=
  ⟨fun x y kk => ⟨decode_encode (.ldi x kk), decode_encode (.mov x y)⟩, fun x y kk s =>
    ⟨⟨_, rfl, s.reg_setReg_self x kk, s.registerFrame_setReg x _⟩,
      ⟨_, rfl, s.reg_setReg_self x (s.reg y), s.registerFrame_setReg x _⟩⟩⟩

/-- Settles O33: one register write, of the sum modulo 256. -/
theorem addImmediateWrapsWithoutFlag : Obligations.AddImmediateWrapsWithoutFlag := by
  refine ⟨fun x kk => decode_encode (.addi x kk), fun x kk s => ⟨_, rfl, ?_, s.registerFrame_setReg x _⟩⟩
  rw [State.reg_setReg_self, BitVec.toNat_add]

/-- Settles O39: `LDA` writes the widened address to `I`. -/
theorem loadIndexImmediate : Obligations.LoadIndexImmediate := by
  refine ⟨fun nnn => decode_encode (.lda nnn), fun nnn s => ?_⟩
  have hI : (wideAddr nnn).toNat = nnn.toNat := toNat_wideAddr nnn
  exact ⟨_, rfl, hI, hI ▸ Nat.le_of_lt_succ nnn.isLt, s.indexFrame_setI _⟩

end Sys2Proof.Machine
end

/-!
The family of the display and the keys. A draw goes by the sprite's rows, read from memory, and by positions of the pixel
list: the lemmas here translate both into the sprite and the pixels the obligations speak of. The key skips and the key wait
are each said by one equation per answer.
-/

section
namespace Sys2Proof.Machine

/-! The key skips -/

/-- The key index a value names, or none for the values the query is not defined on (R191, D11). -/
theorem keyIndex_cases (v : Byte) :
    (15 < v.toNat ∧ keyIndex v = none) ∨ ∃ k : Nibble, k.toNat = v.toNat ∧ keyIndex v = some k := by
  by_cases hv : v.toNat ≤ 15
  · have hk : keyIndex v = some (v.setWidth 4) := if_pos hv
    exact .inr ⟨_, toNat_of_keyIndex hk, hk⟩
  · exact .inl ⟨Nat.lt_of_not_le hv, if_neg hv⟩

/-- A key is the key index of the value that is its number (R191). -/
theorem keyIndex_of_toNat {v : Byte} {k : Nibble} (hk : k.toNat = v.toNat) : keyIndex v = some k := by
  obtain ⟨hv, _⟩ | ⟨k', hk', h⟩ := keyIndex_cases v
  · omega
  · rw [h, BitVec.eq_of_toNat_eq (hk'.trans hk.symm)]

/-- A value above 15 names no key (R191, D11). -/
theorem keyIndex_of_gt {v : Byte} (hv : 15 < v.toNat) : keyIndex v = none := if_neg (Nat.not_le.mpr hv)

section KeySkips
variable {x : RegIx} {s : State}

/-- `SKUP` asks for the key `V[x]` and skips when it is not pressed (R182). -/
theorem exec_skup_of_key {k : Nibble} (hk : k.toNat = (s.reg x).toNat) :
    exec (.skup x) s = .next (s.afterKeyPressed.skipIf (skupSkips (s.keyPressed k))) := by
  simp only [exec, execSkup, keyIndex_of_toNat hk]

/-- `SKDN` asks for the key `V[x]` and skips when it is pressed (R183). -/
theorem exec_skdn_of_key {k : Nibble} (hk : k.toNat = (s.reg x).toNat) :
    exec (.skdn x) s = .next (s.afterKeyPressed.skipIf (skdnSkips (s.keyPressed k))) := by
  simp only [exec, execSkdn, keyIndex_of_toNat hk]

/-- `SKUP` is refused where `V[x]` is no key (R182, D11). -/
theorem exec_skup_refused (hx : 15 < (s.reg x).toNat) : exec (.skup x) s = .refused (.keyIndex (s.reg x)) := by
  simp only [exec, execSkup, keyIndex_of_gt hx]

/-- `SKDN` is refused where `V[x]` is no key (R183, D11). -/
theorem exec_skdn_refused (hx : 15 < (s.reg x).toNat) : exec (.skdn x) s = .refused (.keyIndex (s.reg x)) := by
  simp only [exec, execSkdn, keyIndex_of_gt hx]

end KeySkips

/-- A key skip consumes the answer and may move `pc`, and changes nothing else (R182, R183). -/
theorem State.keySkip_frame (s : State) (c : Bool) :
    SameRegsBut [] s (s.afterKeyPressed.skipIf c) ∧ (s.afterKeyPressed.skipIf c).I = s.I ∧
    (s.afterKeyPressed.skipIf c).sp = s.sp ∧ SameControl s (s.afterKeyPressed.skipIf c) ∧
    SameMemory s (s.afterKeyPressed.skipIf c) ∧
    (s.afterKeyPressed.skipIf c).env = { s.env with pressed := s.env.pressed.tail } := by
  have h := s.afterKeyPressed.jumpFrame_skipIf c
  exact ⟨h.regs, h.I, h.sp, { h.control with }, h.memory, h.env⟩

/-- Settles O45: the two skips where `V[x]` is a key, and the two refusals where it is none. -/
theorem keySkipsQueryTheKey : Obligations.KeySkipsQueryTheKey := by
  refine ⟨fun x => ⟨decode_encode (.skup x), decode_encode (.skdn x)⟩, fun x s =>
    ⟨fun k hk => ?_, fun hx => ⟨exec_skup_refused hx, exec_skdn_refused hx⟩⟩⟩
  refine ⟨_, _, rfl, exec_skup_of_key hk, ?_, exec_skdn_of_key hk, s.afterKeyPressed.skipIf_pc _, ?_⟩
  · simp [skupSkips]
  · rintro v (rfl | rfl)
    · exact s.keySkip_frame _
    · exact s.keySkip_frame _

/-- A checked access always answers a next state (R119). -/
theorem exists_next_of_checked (i : Instr) (addrs : List Int) (s t : State) : ∃ u, checked i addrs s t = .next u := by
  obtain ⟨_, _, h⟩ | ⟨_, h⟩ := checked_next i addrs s t
  · exact ⟨_, h⟩
  · exact ⟨_, h⟩

/-- Settles O23: a handler without checks answers at once, one with checks by `exists_next_of_checked`, and a key skip by
whether its register names a key. -/
theorem onlyKeySkipsAreRefused : Obligations.OnlyKeySkipsAreRefused := by
  intro i s
  cases i with
  | skup x =>
    obtain ⟨hx, _⟩ | ⟨k, hk, _⟩ := keyIndex_cases (s.reg x)
    · exact .inr ⟨x, .inl rfl, hx, exec_skup_refused hx⟩
    · exact .inl ⟨_, exec_skup_of_key hk⟩
  | skdn x =>
    obtain ⟨hx, _⟩ | ⟨k, hk, _⟩ := keyIndex_cases (s.reg x)
    · exact .inr ⟨x, .inr rfl, hx, exec_skdn_refused hx⟩
    · exact .inl ⟨_, exec_skdn_of_key hk⟩
  | ret | call | drw | bcd | stm | ldm => exact .inl (exists_next_of_checked _ _ s _)
  | _ => exact .inl ⟨_, rfl⟩

/-! The key wait -/

/-- Settles O46: the handler writes `PHASE` alone. -/
theorem waitKeyEntersTheWait : Obligations.WaitKeyEntersTheWait := fun _ _ =>
  ⟨_, rfl, rfl, fun _ _ => rfl, rfl, rfl, rfl, rfl, rfl, rfl, fun _ => rfl, rfl⟩

/-- A counter goes down by one and stays at 0 (R28). -/
theorem toNat_countDown (b : Byte) : (countDown b).toNat = b.toNat - 1 := by
  unfold countDown
  split
  next h => rw [h]; rfl
  next h => bv_omega

/-- The tick is enabled in `WAIT_KEY` (R115, R253). -/
theorem State.tick_of_waitKey {s : State} {x : RegIx} (hp : s.PHASE = .waitKey x) :
    s.tick = (s.setDT (countDown s.DT)).setST (countDown s.ST) := by
  simp only [State.tick, State.timersRun, hp, if_true]

/-- The sentinel is no key index (R7, D12). -/
theorem le_toNat_keySentinel : 0x10 ≤ Config.keySentinel.toNat := by
  have := Config.sentinelOffset.isLt
  rw [Config.keySentinel, BitVec.toNat_ofNat]
  omega

/-- The answer to `KeyCurrent` is the first one the environment holds, where it holds one (R192). -/
theorem State.keyCurrent_of_cons {s : State} {a : KeyAnswer} {rest : List KeyAnswer} (h : s.env.current = a :: rest) :
    s.keyCurrent = a := by
  rw [State.keyCurrent, h, List.headD_cons]

/-- A key wait that ends has `V[x]` written and the core back in `RUN` (R184). -/
theorem State.reg_endWait (s : State) (x : RegIx) (b : Byte) : ((s.setReg x b).setPhase .run).reg x = b := by
  rw [State.reg_setPhase, State.reg_setReg_self]

/-- What the key-wait step makes of each answer (R184). -/
theorem keyWait_answer (x : RegIx) (s : State) : ∃ t, keyWait x s = .next t ∧
    (s.keyCurrent = .none → t.reg x = s.reg x ∧ t.PHASE = s.PHASE) ∧
    (∀ k, s.keyCurrent = .mapped k → (t.reg x).toNat = k.toNat ∧ t.PHASE = .run) ∧
    (s.keyCurrent = .unmapped → t.reg x = Config.keySentinel ∧ t.PHASE = .run) := by
  unfold keyWait
  cases s.keyCurrent with
  | none => exact ⟨_, rfl, fun _ => ⟨rfl, rfl⟩, nofun, nofun⟩
  | mapped k =>
    refine ⟨_, rfl, nofun, fun k' hk => ⟨?_, rfl⟩, nofun⟩
    cases hk
    rw [State.reg_endWait, BitVec.toNat_setWidth, Nat.mod_eq_of_lt (by omega)]
  | unmapped => exact ⟨_, rfl, nofun, nofun, fun _ => ⟨State.reg_endWait _ x _, rfl⟩⟩

/-- The key-wait step consumes one answer and changes no other state but `V[x]` and `PHASE` (R184). -/
theorem keyWait_frame {x : RegIx} {s t : State} (h : keyWait x s = .next t) :
    SameRegsBut [x] s t ∧ t.I = s.I ∧ t.pc = s.pc ∧ t.sp = s.sp ∧ t.DT = s.DT ∧ t.ST = s.ST ∧ t.FAULT = s.FAULT ∧
    SameMemory s t ∧ t.env = { s.env with current := s.env.current.tail } := by
  obtain rfl | ⟨b, rfl⟩ := keyWait_cases h
  · exact ⟨fun _ _ => rfl, rfl, rfl, rfl, rfl, rfl, rfl, fun _ => rfl, rfl⟩
  · exact ⟨(s.afterKeyCurrent.registerFrame_setReg x b).regs, rfl, rfl, rfl, rfl, rfl, rfl, fun _ => rfl, rfl⟩

/-- Settles O47: the tick during the wait, and the key-wait step by its answer and its frame. -/
theorem waitKeyCompletesOnAKey : Obligations.WaitKeyCompletesOnAKey := by
  refine ⟨fun x => decode_encode (.wkey x), fun x s hp ht => ?_, fun x s => ⟨rfl, fun hp he => ?_⟩⟩
  · have htick : s.turn.tick = _ := State.tick_of_waitKey (s := s.turn) hp
    exact ⟨_, (step_of_tick ht).trans (congrArg _ htick), hp, toNat_countDown s.DT, toNat_countDown s.ST,
      fun _ _ => rfl, rfl, rfl, rfl, fun _ => rfl⟩
  · obtain ⟨t, hstep, hnone, hmapped, hunmapped⟩ := keyWait_answer x s.turn
    refine ⟨s.turn.keyCurrent, t, (step_of_waitKey he hp).trans hstep, fun _ _ hc => State.keyCurrent_of_cons hc,
      fun ha => ?_, hmapped, fun ha => ?_, keyWait_frame hstep⟩
    · obtain ⟨hreg, hphase⟩ := hnone ha
      exact ⟨hreg, hphase.trans hp⟩
    · obtain ⟨hreg, hphase⟩ := hunmapped ha
      exact ⟨hreg, hreg ▸ le_toNat_keySentinel, hphase⟩

/-! Clearing, and the draw that faults -/

/-- A pixel is on exactly if its position is listed (R185). -/
theorem Display.pixel_iff (d : Display) (px py : Nat) : d.pixel px py = true ↔ d.position px py ∈ d.lit :=
  List.contains_iff_mem

/-- A display that lists no position has every pixel off. -/
theorem Display.pixel_eq_false {d : Display} (h : ∀ c, c ∉ d.lit) (px py : Nat) : d.pixel px py = false :=
  Bool.eq_false_iff.mpr fun hp => h _ ((d.pixel_iff px py).mp hp)

/-- Settles O41: the display's list is emptied, and no other state is touched. -/
theorem clearTurnsEveryPixelOff : Obligations.ClearTurnsEveryPixelOff :=
  ⟨decode_encode .cls, fun _ => ⟨_, rfl, Display.pixel_eq_false (fun _ => List.not_mem_nil), rfl, rfl, rfl, fun _ _ => rfl,
    rfl, rfl, rfl, ⟨rfl, rfl, rfl, rfl⟩, fun _ => rfl⟩⟩

/-- The first bad address of accesses from `I` up that are not all inside memory, as a fault record holds it (R242). -/
theorem State.firstOutOfRange_dataAddresses {s : State} {n : Nat} (hn : n ≠ 0) (hI : 4096 < s.I.toNat + n) :
    ∃ a, firstOutOfRange (s.dataAddresses n) = some a ∧
      BitVec.ofInt 16 a = if s.I.toNat < 0x1000 then 0x1000 else s.I := by
  refine ⟨((max s.I.toNat 4096 : Nat) : Int), ?_, ?_⟩
  · rw [State.dataAddresses, firstOutOfRange_addressesFrom, if_neg (by omega)]
  · rw [BitVec.ofInt_natCast]
    split
    next hin => rw [Nat.max_eq_right (by omega)]; rfl
    next hout => rw [Nat.max_eq_left (by omega), BitVec.ofNat_toNat, BitVec.setWidth_eq]

/-- Settles O43: the check of the row addresses comes before the draw. -/
theorem drawOutsideMemoryFaults : Obligations.DrawOutsideMemoryFaults := by
  intro x y n s hn hI
  obtain ⟨a, ha, haddr⟩ := State.firstOutOfRange_dataAddresses (s := s) (n := n.toNat) (by omega) (by omega)
  rw [← haddr]
  exact checked_of_some ha

/-! The sprite -/

/-- `n` cells are read. -/
@[simp] theorem Memory.length_readAll (m : Memory) (a n : Nat) : (m.readAll a n).length = n := by
  rw [Memory.readAll_eq, List.length_map, List.length_range]

/-- The cells are read in the order of their addresses (R181). -/
theorem Memory.getD_readAll (m : Memory) (a : Nat) {n r : Nat} (hr : r < n) : (m.readAll a n).getD r 0 = m.read (a + r) := by
  have hlen : r < ((List.range n).map fun r => m.read (a + r)).length := by simpa using hr
  rw [Memory.readAll_eq, List.getD_eq_getElem _ _ hlen, List.getElem_map, List.getElem_range]

/-- A byte that is not 0 has a 1 bit in some column of its row, and conversely (R181, D19). -/
theorem exists_column_iff (b : Byte) : (∃ dx, dx < 8 ∧ b.getLsbD (7 - dx) = true) ↔ b ≠ 0 := by
  constructor
  · rintro ⟨dx, _, hbit⟩ rfl
    simp at hbit
  · intro hb
    by_contra hno
    refine hb (BitVec.eq_of_getLsbD_eq fun k hk => ?_)
    have hcol : b.getLsbD (7 - (7 - k)) ≠ true := fun hbit => hno ⟨7 - k, by omega, hbit⟩
    rw [show 7 - (7 - k) = k by omega] at hcol
    simpa using hcol

/-- The rows `DRW` draws, read from `I` up (R181). -/
def State.spriteRows (s : State) (n : Nibble) : List Byte := s.M.readAll s.I.toNat n.toNat

/-- A sprite has `n` rows. -/
@[simp] theorem State.length_spriteRows (s : State) (n : Nibble) : (s.spriteRows n).length = n.toNat :=
  s.M.length_readAll _ _

/-- A sprite has at most 15 rows (R181). -/
theorem State.length_spriteRows_le (s : State) (n : Nibble) : (s.spriteRows n).length ≤ 15 :=
  (s.length_spriteRows n).trans_le (Nat.le_of_lt_succ n.isLt)

/-- `DRW` whose rows are inside memory draws them (R181, D30). -/
theorem exec_drw_inside {x y : RegIx} {n : Nibble} {s : State} (hI : n = 0 ∨ s.I.toNat + n.toNat - 1 ≤ 0x0FFF) :
    exec (.drw x y n) s = .next (s.drawSprite n (s.reg x) (s.reg y)) := by
  refine checked_of_none ((dataAddresses_ok s _).mpr ?_)
  obtain rfl | hI := hI
  · exact .inl rfl
  · omega

/-- The flag reads as 1 exactly if the condition held (R22). -/
theorem State.flag_eq_one_iff (s : State) (c : Bool) : (s.setFlag c).reg 0xF = 1 ↔ c = true := by
  rw [State.reg_setFlag, if_pos rfl]
  cases c <;> decide

/-- The flag reads as 0 exactly if the condition did not hold (R22). -/
theorem State.flag_eq_zero_iff (s : State) (c : Bool) : (s.setFlag c).reg 0xF = 0 ↔ c = false := by
  rw [State.reg_setFlag, if_pos rfl]
  cases c <;> decide

/-! Positions of the pixel list and pixels -/

/-- A position is that of a pixel exactly if the wrapped coordinates are the pixel's (R187). -/
theorem Display.position_eq_pixel {d : Display} {px py : Nat} (hpx : px < d.width) (hpy : py < d.height) (tx ty : Nat) :
    d.position tx ty = d.position px py ↔ tx % d.width = px ∧ ty % d.height = py := by
  rw [Display.position_eq (Nat.zero_lt_of_lt hpx), Nat.mod_eq_of_lt hpx, Nat.mod_eq_of_lt hpy]

/-- A property that only holds of positions of pixels holds of some position exactly if it holds of a pixel's. -/
theorem Display.exists_position_iff {d : Display} (hw : 0 < d.width) (hh : 0 < d.height) {P : Nat → Prop}
    (hP : ∀ c, P c → ∃ tx ty, d.position tx ty = c) :
    (∃ c, P c) ↔ ∃ px py, px < d.width ∧ py < d.height ∧ P (d.position px py) := by
  constructor
  · rintro ⟨c, hc⟩
    obtain ⟨tx, ty, rfl⟩ := hP c hc
    have hpx := Nat.mod_lt tx hw
    have hpy := Nat.mod_lt ty hh
    refine ⟨tx % d.width, ty % d.height, hpx, hpy, ?_⟩
    rwa [← (Display.position_eq_pixel hpx hpy tx ty).mpr ⟨rfl, rfl⟩]
  · rintro ⟨px, py, _, _, h⟩
    exact ⟨_, h⟩

/-- What the rows of a sprite touch are positions of pixels. -/
theorem exists_position_of_rowsTouch {d : Display} {rows : List Byte} {x y c : Nat} (h : rowsTouch d rows x y c) :
    ∃ tx ty, d.position tx ty = c := by
  obtain ⟨dy, dx, _, _, _, hc⟩ := h
  exact ⟨_, _, hc⟩

/-- A position is hit at all exactly if it is touched. -/
theorem hitCount_pos_iff (d : Display) (rows : List Byte) (x y c : Nat) :
    0 < hitCount d rows x y c ↔ rowsTouch d rows x y c := by
  simp [hitCount, rowsTouch, Nat.pos_iff_ne_zero, List.sum_eq_zero_iff, List.countP_eq_zero]

/-- What is hit are positions of pixels. -/
theorem exists_position_of_hitCount {d : Display} {rows : List Byte} {x y c : Nat} (h : 1 ≤ hitCount d rows x y c) :
    ∃ tx ty, d.position tx ty = c :=
  exists_position_of_rowsTouch ((hitCount_pos_iff d rows x y c).mp h)

/-- The sprite touches the position of a pixel exactly if it touches the pixel (R187). -/
theorem rowsTouch_sprite {s : State} {x y : RegIx} {n : Nibble} {px py : Nat} (hpx : px < s.env.display.width)
    (hpy : py < s.env.display.height) :
    rowsTouch s.env.display (s.spriteRows n) (s.reg x).toNat (s.reg y).toNat (s.env.display.position px py) ↔
      spriteTouches s x y n px py := by
  simp only [rowsTouch, spriteTouches, State.length_spriteRows, Display.position_eq_pixel hpx hpy]
  refine exists_congr fun dy => exists_congr fun dx => and_congr_right fun hdy => ?_
  rw [State.spriteRows, Memory.getD_readAll _ _ hdy]

/-- The position of a pixel is hit as often as the pixel (R187). -/
theorem hitCount_sprite {s : State} {x y : RegIx} {n : Nibble} {px py : Nat} (hpx : px < s.env.display.width)
    (hpy : py < s.env.display.height) :
    hitCount s.env.display (s.spriteRows n) (s.reg x).toNat (s.reg y).toNat (s.env.display.position px py) =
      spriteHits s x y n px py := by
  simp only [hitCount, spriteHits, State.length_spriteRows, Display.position_eq_pixel hpx hpy]
  refine congrArg List.sum (List.map_congr_left fun dy hdy => ?_)
  rw [State.spriteRows, Memory.getD_readAll _ _ (List.mem_range.mp hdy)]

/-! What a draw leaves -/

/-- Where the pixels stand depends on the display's dimensions alone. -/
theorem Display.position_draw (d : Display) (rows : List Byte) (x y : Byte) (tx ty : Nat) :
    (d.draw rows x y).1.position tx ty = d.position tx ty := by
  obtain ⟨_, hw, hh⟩ := d.draw_keeps rows x y
  rw [Display.position, Display.position, hw, hh]

/-- A pixel after a draw, by the pixel list of the drawn display. -/
theorem State.drawSprite_pixel (s : State) (n : Nibble) (vx vy : Byte) (px py : Nat) :
    (s.drawSprite n vx vy).env.display.pixel px py = true ↔
      s.env.display.position px py ∈ (s.env.display.draw (s.spriteRows n) vx vy).1.lit := by
  rw [← s.env.display.position_draw (s.spriteRows n) vx vy]
  exact Display.pixel_iff _ px py

/-- `VF` after a draw is 1 exactly on a collision (R181). -/
theorem State.drawSprite_flag_eq_one_iff (s : State) (n : Nibble) (vx vy : Byte) :
    (s.drawSprite n vx vy).reg 0xF = 1 ↔ (s.env.display.draw (s.spriteRows n) vx vy).2 = true :=
  State.flag_eq_one_iff _ _

/-- `VF` after a draw is 0 exactly without a collision (R181). -/
theorem State.drawSprite_flag_eq_zero_iff (s : State) (n : Nibble) (vx vy : Byte) :
    (s.drawSprite n vx vy).reg 0xF = 0 ↔ (s.env.display.draw (s.spriteRows n) vx vy).2 = false :=
  State.flag_eq_zero_iff _ _

/-- `VF` after a draw is 0 or 1 (D35). -/
theorem State.drawSprite_flag (s : State) (n : Nibble) (vx vy : Byte) :
    (s.drawSprite n vx vy).reg 0xF = 0 ∨ (s.drawSprite n vx vy).reg 0xF = 1 := by
  rw [State.drawSprite_flag_eq_zero_iff, State.drawSprite_flag_eq_one_iff]
  exact Bool.eq_false_or_eq_true _ |>.symm

/-- A draw writes no data register but `VF` (R181). -/
theorem State.sameRegsBut_drawSprite (s : State) (n : Nibble) (vx vy : Byte) : SameRegsBut [0xF] s (s.drawSprite n vx vy) :=
  fun _ hr => State.reg_setFlag_of_ne _ (List.ne_of_not_mem_cons hr) _

/-- A well-formed display has pixels (R7). -/
theorem Display.dimensions_pos {d : Display} (h : d.wf = true) : 0 < d.width ∧ 0 < d.height := by
  simp only [Display.wf, Bool.and_eq_true, decide_eq_true_eq] at h
  exact h.1

/-- Settles O42: `Display.draw_touches`, with positions and rows read as pixels and the sprite. -/
theorem drawXorsTheSpriteAndReportsCollision : Obligations.DrawXorsTheSpriteAndReportsCollision := by
  intro x y n s hI
  obtain ⟨_, hwidth, hheight⟩ := s.env.display.draw_keeps (s.spriteRows n) (s.reg x) (s.reg y)
  refine ⟨_, exec_drw_inside hI, s.drawSprite_flag n _ _, hwidth, hheight, rfl, s.sameRegsBut_drawSprite n _ _, rfl, rfl, rfl,
    ⟨rfl, rfl, rfl, rfl⟩, fun _ => rfl, fun hwf hw hh => ?_⟩
  have hrows : (s.spriteRows n).length ≤ s.env.display.height := (s.length_spriteRows_le n).trans hh
  obtain ⟨hpixel, hcollision⟩ := Display.draw_touches (s.reg x) (s.reg y) hwf hw hrows
  refine ⟨fun px py hpx hpy => ?_, ?_⟩
  · rw [State.drawSprite_pixel, hpixel, rowsTouch_sprite hpx hpy, Display.pixel_iff]
  · rw [State.drawSprite_flag_eq_one_iff, hcollision,
      Display.exists_position_iff (by omega) (by omega) fun c hc => exists_position_of_rowsTouch hc.1]
    refine exists_congr fun px => exists_congr fun py => and_congr_right fun hpx => and_congr_right fun hpy => ?_
    rw [rowsTouch_sprite hpx hpy, Display.pixel_iff]

/-- Settles O56: `Display.draw_hits`, with positions and rows read as pixels and the sprite. -/
theorem drawOnAnyDisplayGoesByHowOftenAPixelIsHit : Obligations.DrawOnAnyDisplayGoesByHowOftenAPixelIsHit := by
  intro x y n s hI hwf
  obtain ⟨hw, hh⟩ := Display.dimensions_pos hwf
  obtain ⟨hpixel, hcollision⟩ := Display.draw_hits (s.spriteRows n) (s.reg x) (s.reg y) hwf
  refine ⟨_, exec_drw_inside hI, fun px py hpx hpy => ?_, ?_, ?_⟩
  · rw [State.drawSprite_pixel, hpixel, hitCount_sprite hpx hpy, Display.pixel_iff]
  · obtain h | h := s.drawSprite_flag n (s.reg x) (s.reg y) <;> rw [h] <;> decide
  · rw [State.drawSprite_flag_eq_one_iff, hcollision, Display.exists_position_iff hw hh fun c hc =>
      exists_position_of_hitCount (hc.elim And.left Nat.le_of_succ_le)]
    refine exists_congr fun px => exists_congr fun py => and_congr_right fun hpx => and_congr_right fun hpy => ?_
    rw [hitCount_sprite hpx hpy, Display.pixel_iff]

/-! Drawing twice -/

/-- A draw leaves which positions a sprite touches. -/
theorem rowsTouch_draw (d : Display) (rows rows' : List Byte) (x y : Byte) (tx ty c : Nat) :
    rowsTouch (d.draw rows x y).1 rows' tx ty c ↔ rowsTouch d rows' tx ty c := by
  simp only [rowsTouch, Display.position_draw]

/-- Rows touch a position exactly if one of them has a 1 bit. -/
theorem exists_rowsTouch_iff (d : Display) (rows : List Byte) (x y : Nat) :
    (∃ c, rowsTouch d rows x y c) ↔ ∃ dy, dy < rows.length ∧ rows.getD dy 0 ≠ 0 := by
  simp only [← exists_column_iff]
  constructor
  · rintro ⟨c, dy, dx, hdy, hdx, hbit, _⟩
    exact ⟨dy, hdy, dx, hdx, hbit⟩
  · rintro ⟨dy, hdy, dx, hdx, hbit⟩
    exact ⟨_, dy, dx, hdy, hdx, hbit, rfl⟩

/-- A sprite touches a position exactly if one of its rows is not 0. -/
theorem exists_rowsTouch_sprite_iff (s : State) (n : Nibble) (x y : Nat) :
    (∃ c, rowsTouch s.env.display (s.spriteRows n) x y c) ↔ ∃ dy, dy < n.toNat ∧ s.M.read (s.I.toNat + dy) ≠ 0 := by
  rw [exists_rowsTouch_iff, State.length_spriteRows]
  refine exists_congr fun dy => and_congr_right fun hdy => ?_
  rw [State.spriteRows, Memory.getD_readAll _ _ hdy]

/-- On an all-off display that the sprite cannot meet itself on, a draw meets no lit pixel, and the same draw again turns off
what the first turned on, with a collision exactly if it touched a pixel (R195). -/
theorem Display.draw_twice {d : Display} {rows : List Byte} (x y : Byte) (hlit : d.lit = []) (hw : 8 ≤ d.width)
    (hh : 0 < d.height) (hl : rows.length ≤ d.height) :
    (d.draw rows x y).2 = false ∧ (∀ c, c ∉ ((d.draw rows x y).1.draw rows x y).1.lit) ∧
    (((d.draw rows x y).1.draw rows x y).2 = true ↔ ∃ c, rowsTouch d rows x.toNat y.toNat c) := by
  have hd : d.wf = true := by simp [Display.wf, Display.litFrom, hlit, hh]; omega
  have hoff : ∀ c, c ∉ d.lit := by simp [hlit]
  obtain ⟨hkeep, hwidth, hheight⟩ := d.draw_keeps rows x y
  obtain ⟨hfirst, hcollision⟩ := Display.draw_touches x y hd hw hl
  obtain ⟨hsecond, hagain⟩ := Display.draw_touches (rows := rows) x y (hkeep hd) (hwidth ▸ hw) (hheight ▸ hl)
  simp only [rowsTouch_draw, hfirst, hoff, false_iff, not_not] at hsecond hagain
  simp only [hoff, and_false, exists_false, iff_false, Bool.not_eq_true] at hcollision
  refine ⟨hcollision, fun c hc => (hsecond c).mp hc trivial, ?_⟩
  simpa only [and_self] using hagain

/-- Settles O44: `Display.draw_twice`; the second draw has the same origin and rows, since the first writes `VF` and the display
alone. -/
theorem drawingTwiceRestoresTheDisplay : Obligations.DrawingTwiceRestoresTheDisplay := by
  intro x y n s hx hy hI hlit hw hh
  have hrows : (s.spriteRows n).length ≤ s.env.display.height := (s.length_spriteRows_le n).trans hh
  obtain ⟨hfirst, hoff, hsecond⟩ := Display.draw_twice (s.reg x) (s.reg y) hlit hw (by omega) hrows
  rw [exists_rowsTouch_sprite_iff] at hsecond
  have hframe := s.sameRegsBut_drawSprite n (s.reg x) (s.reg y)
  have hagain : exec (.drw x y n) (s.drawSprite n (s.reg x) (s.reg y)) =
      .next ((s.drawSprite n (s.reg x) (s.reg y)).drawSprite n (s.reg x) (s.reg y)) := by
    rw [exec_drw_inside (s := s.drawSprite n (s.reg x) (s.reg y)) hI, hframe x (by simpa using hx), hframe y (by simpa using hy)]
  refine ⟨_, _, exec_drw_inside hI, (State.drawSprite_flag_eq_zero_iff ..).mpr hfirst, hagain, Display.pixel_eq_false hoff,
    fun hrow => ?_, fun hrow => ?_⟩
  · exact (State.drawSprite_flag_eq_one_iff ..).mpr (hsecond.mpr hrow)
  · exact (State.drawSprite_flag_eq_zero_iff ..).mpr (Bool.eq_false_iff.mpr fun h => hrow (hsecond.mp h))

end Sys2Proof.Machine
end

/-!
The family of timers, the index register and memory transfers. A transfer is said by two equations, one for accesses inside
memory and one for the fault, which is the same for all three (`checked_data_outside`); what a transfer leaves in each cell or
register is said by the laws of its loop.
-/

section
namespace Sys2Proof.Machine

/-! Accesses from `I` up -/

/-- A handler whose accesses from `I` up are not all inside memory halts at the first bad address (R119, R242). -/
theorem checked_data_outside {i : Instr} {s t : State} {n : Nat} (hn : n ≠ 0) (hI : 4096 < s.I.toNat + n) :
    checked i (s.dataAddresses n) s t = .next (haltedBy s i (if s.I.toNat < 0x1000 then 0x1000 else s.I)) := by
  obtain ⟨a, ha, haddr⟩ := State.firstOutOfRange_dataAddresses hn hI
  rw [← haddr]
  exact checked_of_some ha

/-- A replacement of memory that differs only in the `n` bytes from `a` up changes nothing else (R57). -/
theorem State.storeFrame_setM {s : State} {m : Memory} {a n : Nat} (hm : SameMemoryBut a n s (s.setM m)) :
    StoreFrame a n s (s.setM m) :=
  ⟨fun _ _ => rfl, rfl, rfl, rfl, ⟨rfl, rfl, rfl, rfl⟩, hm, rfl⟩

/-! `BCD` -/

/-- The hundreds digit as a number (R215). -/
theorem toNat_hundreds (v : Byte) : (hundreds v).toNat = v.toNat / 100 := by
  rw [hundreds, BitVec.toNat_ofNat, Nat.mod_eq_of_lt (by omega)]

/-- The tens digit as a number (R215). -/
theorem toNat_tens (v : Byte) : (tens v).toNat = v.toNat / 10 % 10 := by
  rw [tens, BitVec.toNat_ofNat, Nat.mod_eq_of_lt (by omega)]

/-- The ones digit as a number (R215). -/
theorem toNat_ones (v : Byte) : (ones v).toNat = v.toNat % 10 := by
  rw [ones, BitVec.toNat_ofNat, Nat.mod_eq_of_lt (by omega)]

/-- The memory of a state with the digits of `V[x]` stored from `I` up (R215). -/
def State.storedDigits (s : State) (x : RegIx) : Memory :=
  ((s.M.write s.I.toNat (hundreds (s.reg x))).write (s.I.toNat + 1) (tens (s.reg x))).write (s.I.toNat + 2) (ones (s.reg x))

/-- `BCD` whose stores are all inside memory (R215). -/
theorem exec_bcd_inside {x : RegIx} {s : State} (hI : s.I.toNat ≤ 0x0FFD) :
    exec (.bcd x) s = .next (s.setM (s.storedDigits x)) :=
  checked_of_none ((dataAddresses_ok s 3).mpr (.inr (by omega)))

/-- Each digit of `V[x]` stands in its cell, and every other cell is kept (R215). -/
theorem State.read_storedDigits {s : State} (hm : Memory.wf s.M = true) (hI : s.I.toNat ≤ 0x0FFD) (x : RegIx) (e : Nat) :
    (s.storedDigits x).read e =
      if e = s.I.toNat + 2 then ones (s.reg x) else if e = s.I.toNat + 1 then tens (s.reg x)
      else if e = s.I.toNat then hundreds (s.reg x) else s.M.read e := by
  have hpush : s.I.toNat ≤ 0x0FFE := by omega
  rw [State.storedDigits, Memory.read_write (Memory.wf_push hm hpush _ _), Memory.read_push hm hpush]

/-- Settles O50: the stores inside memory cell by cell, and the fault. -/
theorem bcdStoresThreeDigits : Obligations.BcdStoresThreeDigits := by
  refine ⟨fun x => decode_encode (.bcd x), fun x s hm => ⟨fun hI => ?_, fun hI => checked_data_outside (by omega) (by omega)⟩⟩
  have hread := State.read_storedDigits hm hI x
  refine ⟨_, exec_bcd_inside hI, ?_, ?_, ?_, State.storeFrame_setM fun e he => ?_⟩
  · rw [State.setM_M, hread, if_neg (by omega), if_neg (by omega), if_pos rfl, toNat_hundreds]
  · rw [State.setM_M, hread, if_neg (by omega), if_pos rfl, toNat_tens]
  · rw [State.setM_M, hread, if_pos rfl, toNat_ones]
  · rw [State.setM_M, hread, if_neg (by omega), if_neg (by omega), if_neg (by omega)]

/-! `STM` and `LDM` -/

/-- Accesses whose last address is at most 0FFF are all inside memory (R50). -/
theorem add_succ_le_memSize {a n : Nat} (h : a + n ≤ 0x0FFF) : a + (n + 1) ≤ Config.memSize := by
  rw [Config.memSize]; omega

/-- Settles O51: the stores inside memory by what the loop leaves in each cell, and the fault. -/
theorem storeMultipleWritesMemory : Obligations.StoreMultipleWritesMemory := by
  refine ⟨fun x => decode_encode (.stm x), fun x s hm => ⟨fun hI => ?_, fun hI => checked_data_outside (by omega) (by omega)⟩⟩
  have hend := add_succ_le_memSize hI
  refine ⟨_, exec_stm_inside hI, fun r hr => State.read_storeRegs_reg hm hend (by omega), State.storeFrame_setM fun e he => ?_⟩
  rw [State.setM_M, State.read_storeRegs hm _ _ hend, if_neg he]

/-- `LDM` whose reads are all inside memory makes them (R217). -/
theorem exec_ldm_inside {x : RegIx} {s : State} (hI : s.I.toNat + x.toNat ≤ 0x0FFF) :
    exec (.ldm x) s = .next (s.loadRegs s.I.toNat (x.toNat + 1)) :=
  checked_of_none ((dataAddresses_ok s _).mpr (.inr (by omega)))

/-- A register up to `x` is loaded from its cell (R217). -/
theorem State.reg_loadRegs_of_le (s : State) (a : Nat) {x r : RegIx} (hr : r.toNat ≤ x.toNat) :
    (s.loadRegs a (x.toNat + 1)).reg r = s.M.read (a + r.toNat) := by
  rw [s.reg_loadRegs a _ x.isLt, if_pos (by omega)]

/-- A register above `x` is kept (R217). -/
theorem State.reg_loadRegs_of_gt (s : State) (a : Nat) {x r : RegIx} (hr : x.toNat < r.toNat) :
    (s.loadRegs a (x.toNat + 1)).reg r = s.reg r := by
  rw [s.reg_loadRegs a _ x.isLt, if_neg (by omega)]

/-- The loads change nothing but data registers (R217). -/
theorem State.loadRegs_frame (s : State) (a n : Nat) :
    (s.loadRegs a n).I = s.I ∧ (s.loadRegs a n).pc = s.pc ∧ (s.loadRegs a n).sp = s.sp ∧ SameControl s (s.loadRegs a n) ∧
    SameMemory s (s.loadRegs a n) ∧ (s.loadRegs a n).env = s.env := by
  obtain ⟨v, hv⟩ := s.loadRegs_rest a n
  rw [hv]
  exact ⟨rfl, rfl, rfl, ⟨rfl, rfl, rfl, rfl⟩, fun _ => rfl, rfl⟩

/-- Settles O52: the loads inside memory, the fault, and the round trip, in which `LDM` reads the cells `STM` wrote. -/
theorem loadMultipleReadsMemory : Obligations.LoadMultipleReadsMemory := by
  refine ⟨fun x => decode_encode (.ldm x), fun x s => ⟨fun hI => ?_, fun hI => checked_data_outside (by omega) (by omega)⟩,
    fun x s t u hm hI hstm huI hmem => ?_⟩
  · exact ⟨_, exec_ldm_inside hI, fun _ => s.reg_loadRegs_of_le _, fun _ => s.reg_loadRegs_of_gt _, s.loadRegs_frame _ _⟩
  · rw [exec_stm_inside hI] at hstm
    cases hstm
    refine ⟨_, exec_ldm_inside (huI ▸ hI), fun r hr => ?_⟩
    calc (u.loadRegs u.I.toNat (x.toNat + 1)).reg r
      _ = u.M.read (s.I.toNat + r.toNat) := by rw [u.reg_loadRegs_of_le _ hr, huI]
      _ = (s.storeRegs s.I.toNat (x.toNat + 1)).read (s.I.toNat + r.toNat) := hmem _
      _ = s.reg r := State.read_storeRegs_reg hm (add_succ_le_memSize hI) (by omega)

/-! Timers and the index register -/

/-- Settles O48: `GDT` is one register write, `SDT` and `SST` one timer write each. -/
theorem timerInstructionsMoveTheirByte : Obligations.TimerInstructionsMoveTheirByte := by
  refine ⟨fun x => ⟨decode_encode (.gdt x), decode_encode (.sdt x), decode_encode (.sst x)⟩, fun x s => ⟨?_, ?_, ?_⟩⟩
  · exact ⟨_, rfl, s.reg_setReg_self x s.DT, s.registerFrame_setReg x _⟩
  · exact ⟨s.setDT (s.reg x), rfl, rfl, rfl, fun _ _ => rfl, rfl, rfl, rfl, rfl, rfl, fun _ => rfl, rfl⟩
  · exact ⟨s.setST (s.reg x), rfl, rfl, rfl, fun _ _ => rfl, rfl, rfl, rfl, rfl, rfl, fun _ => rfl, rfl⟩

/-- A widened byte is the byte as a number (R83). -/
theorem toNat_wideByte (b : Byte) : (wideByte b).toNat = b.toNat := by
  rw [wideByte, BitVec.toNat_setWidth, Nat.mod_eq_of_lt (by omega)]

/-- A glyph stands at its number: the font base is 0 (R214). -/
theorem toNat_glyphAddress (v : Byte) : (glyphAddress v).toNat = v.toNat := by
  rw [glyphAddress, show Config.fontBase = 0#16 from rfl, BitVec.add_zero, toNat_wideByte]

/-- Settles O49: each is one write of `I`, of the sum modulo 65536 and of the glyph's address. -/
theorem indexArithmeticWithoutFlag : Obligations.IndexArithmeticWithoutFlag := by
  refine ⟨fun x => ⟨decode_encode (.adda x), decode_encode (.fnt x)⟩, fun x s => ⟨?_, ?_⟩⟩
  · have hsum : (s.I + wideByte (s.reg x)).toNat = (s.I.toNat + (s.reg x).toNat) % 65536 := by
      rw [BitVec.toNat_add, toNat_wideByte]
    exact ⟨_, rfl, hsum, s.indexFrame_setI _⟩
  · exact ⟨_, rfl, toNat_glyphAddress (s.reg x), s.indexFrame_setI _⟩

end Sys2Proof.Machine
end

/-!
The family of exceptions. The halt on an illegal word, the tick by phase and its frame, the host's interactions by phase, and
the host's load byte by byte: a run of `load` interactions is one `writeAll` of memory.
-/

section
namespace Sys2Proof.Machine

/-! The illegal word -/

/-- Settles O7: the engine's step on an illegal word, its fields written out. -/
theorem illegalWordHaltsTheCore : Obligations.IllegalWordHaltsTheCore :=
  fun _ _ hp he hpc hd => step_of_fetchWord_error he hp hpc hd

/-! The tick -/

/-- The tick is enabled in `RUN` (R115, R251). -/
theorem State.tick_of_run {s : State} (hp : s.PHASE = .run) : s.tick = (s.setDT (countDown s.DT)).setST (countDown s.ST) := by
  simp only [State.tick, State.timersRun, hp, if_true]

/-- The tick is disabled in `LOAD` (R115, R251). -/
theorem State.tick_of_load {s : State} (hp : s.PHASE = .load) : s.tick = s := by
  simp only [State.tick, State.timersRun, hp, Bool.false_eq_true, if_false]

/-- The tick changes nothing but the timers, whatever the phase (R251). -/
theorem State.tick_frame (s : State) :
    SameRegsBut [] s s.tick ∧ s.tick.I = s.I ∧ s.tick.pc = s.pc ∧ s.tick.sp = s.sp ∧ SameMemory s s.tick ∧
    s.tick.PHASE = s.PHASE ∧ s.tick.FAULT = s.FAULT ∧ s.tick.env = s.env := by
  unfold State.tick
  split
  · exact ⟨fun _ _ => rfl, rfl, rfl, rfl, fun _ => rfl, rfl, rfl, rfl⟩
  · exact ⟨fun _ _ => rfl, rfl, rfl, rfl, fun _ => rfl, rfl, rfl, rfl⟩

/-- Settles O10: both counters go down in the two phases where the tick is enabled; in the other two the tick changes
nothing. -/
theorem tickCountsBothTimersDown : Obligations.TickCountsBothTimersDown := by
  intro s he
  refine ⟨s.turn.tick, step_of_tick he, fun hp => ?_, fun hp => ?_, s.turn.tick_frame⟩
  · have htick : s.turn.tick = (s.turn.setDT (countDown s.DT)).setST (countDown s.ST) :=
      hp.elim (State.tick_of_run (s := s.turn)) fun ⟨_, hwait⟩ => State.tick_of_waitKey (s := s.turn) hwait
    rw [htick]
    exact ⟨toNat_countDown s.DT, toNat_countDown s.ST⟩
  · have htick : s.turn.tick = s.turn := hp.elim (State.tick_of_load (s := s.turn)) (State.tick_of_halted (s := s.turn))
    rw [htick]
    exact ⟨rfl, rfl⟩

/-! The host's interactions -/

section HostStep
variable {s : State} {a : MemAddr} {b : Byte}

/-- The step of the host's `load(addr, byte)` on a held core (R260). -/
theorem step_of_hostWrite_held (he : s.nextEvent = .load a b) (hp : s.PHASE = .load) :
    step s = .next (s.turn.store a.toNat b) :=
  (step_of_hostWrite he).trans (if_pos (s.turn.held_iff.mpr hp))

/-- The host may not write memory of a core that is not held (R67, R261). -/
theorem step_of_hostWrite_not_held (he : s.nextEvent = .load a b) (hp : s.PHASE ≠ .load) : step s = .refused .hostAccess :=
  (step_of_hostWrite he).trans (if_neg (mt s.turn.held_iff.mp hp))

/-- The step of the host's `release` on a held core (R260). -/
theorem step_of_release_held (he : s.nextEvent = .release) (hp : s.PHASE = .load) : step s = .next (s.turn.setPhase .run) :=
  (step_of_release he).trans (if_pos (s.turn.held_iff.mpr hp))

/-- The host may not release a core that is not held (R261). -/
theorem step_of_release_not_held (he : s.nextEvent = .release) (hp : s.PHASE ≠ .load) : step s = .refused .hostAccess :=
  (step_of_release he).trans (if_neg (mt s.turn.held_iff.mp hp))

end HostStep

/-- Settles O54: each interaction by the phase, and a write of memory as read back. -/
theorem hostWritesOnlyWhileTheCoreIsHeld : Obligations.HostWritesOnlyWhileTheCoreIsHeld := by
  refine fun s hm => ⟨fun a b he => ⟨fun hp => ?_, step_of_hostWrite_not_held he⟩,
    fun he => ⟨step_of_release_held he, step_of_release_not_held he⟩⟩
  have hread (c : Nat) : (s.M.write a.toNat b).read c = if c = a.toNat then b else s.M.read c := Memory.read_write hm _ c b
  exact ⟨_, step_of_hostWrite_held he hp, (hread _).trans (if_pos rfl), fun c hc => (hread c).trans (if_neg (by omega)),
    fun _ _ => rfl, rfl, rfl, rfl, ⟨rfl, rfl, rfl, rfl⟩, rfl⟩

/-! The load, byte by byte -/

/-- What moves next is the head of the schedule, where it has one (R117). -/
theorem State.nextEvent_of_cons {s : State} {e : Event} {rest : List Event} (h : s.env.schedule = e :: rest) :
    s.nextEvent = e := by
  simp only [State.nextEvent, h]

/-- The interactions that load a run of bytes, one each, write the run and leave the rest of the schedule (R260, R282). -/
theorem steps_loadsFrom (k : Nat) (rest : List Event) : ∀ (bs : List Byte) (a : Nat) (s : State), s.PHASE = .load →
    a + bs.length ≤ Config.memSize → s.env.schedule = loadsFrom a bs ++ rest →
    ∃ e : Env, e.schedule = rest ∧ steps (bs.length + k) s = steps k ((s.setM (s.M.writeAll a bs)).setEnv e)
  | [], _, s, _, _, hsched => ⟨s.env, hsched, congrArg (fun n => steps n s) (Nat.zero_add k)⟩
  | b :: bs, a, s, hp, hend, hsched => by
    rw [List.length_cons] at hend
    have haddr : (BitVec.ofNat 12 a).toNat = a := by
      rw [Config.memSize] at hend
      rw [BitVec.toNat_ofNat, Nat.mod_eq_of_lt (by omega)]
    have hstep : step s = .next (s.turn.store a b) :=
      haddr ▸ step_of_hostWrite_held (State.nextEvent_of_cons hsched) hp
    have hrest : (s.turn.store a b).env.schedule = loadsFrom (a + 1) bs ++ rest := congrArg List.tail hsched
    obtain ⟨e, he, hsteps⟩ := steps_loadsFrom k rest bs (a + 1) (s.turn.store a b) hp (by omega) hrest
    refine ⟨e, he, ?_⟩
    calc steps ((b :: bs).length + k) s
      _ = steps (bs.length + k + 1) s := by rw [List.length_cons, Nat.add_right_comm]
      _ = steps (bs.length + k) (s.turn.store a b) := by rw [steps, hstep]
      _ = steps k ((s.setM (s.M.writeAll a (b :: bs))).setEnv e) := hsteps

/-- Memory with both images written, the font first (R282). -/
def Memory.writeImages (m : Memory) (font rom : List Byte) : Memory := (m.writeAll 0 font).writeAll 0x200 rom

/-- What the two images leave in each cell: the ROM covers the font (R282). -/
theorem Memory.read_writeImages {m : Memory} (hm : Memory.wf m = true) {font rom : List Byte} (hfont : font.length ≤ 4096)
    (hrom : rom.length ≤ 3584) (a : Nat) :
    (m.writeImages font rom).read a =
      if 0x200 ≤ a ∧ a < 0x200 + rom.length then rom.getD (a - 0x200) 0
      else if a < font.length then font.getD a 0 else m.read a := by
  have hfontEnd : 0 + font.length ≤ Config.memSize := by rw [Config.memSize]; omega
  have hromEnd : 0x200 + rom.length ≤ Config.memSize := by rw [Config.memSize]; omega
  rw [Memory.writeImages, Memory.read_writeAll (Memory.wf_writeAll hm hfontEnd) hromEnd,
    Memory.read_writeAll hm hfontEnd]
  simp only [Nat.zero_le, true_and, Nat.zero_add, Nat.sub_zero]

/-- Settles O55: the font's run of interactions, the ROM's, then the release. -/
theorem loadingByteByByteIsTheLoadOfTheImages : Obligations.LoadingByteByByteIsTheLoadOfTheImages := by
  intro s font rom rest hm hp hfont hrom hsched
  rw [List.append_assoc] at hsched
  obtain ⟨e, he, hfontSteps⟩ := steps_loadsFrom (rom.length + 1) _ font 0 s hp (by rw [Config.memSize]; omega) hsched
  obtain ⟨e', he', hromSteps⟩ := steps_loadsFrom 1 _ rom 0x200 ((s.setM (s.M.writeAll 0 font)).setEnv e) hp
    (by rw [Config.memSize]; omega) he
  have hrelease : step ((s.setM (s.M.writeImages font rom)).setEnv e') =
      .next (((s.setM (s.M.writeImages font rom)).setEnv e').turn.setPhase .run) :=
    step_of_release_held (State.nextEvent_of_cons he') hp
  have hsteps := calc steps (font.length + rom.length + 1) s
    _ = steps (rom.length + 1) ((s.setM (s.M.writeAll 0 font)).setEnv e) := by rw [Nat.add_assoc, hfontSteps]
    _ = steps 1 ((s.setM (s.M.writeImages font rom)).setEnv e') := hromSteps
    _ = .next (((s.setM (s.M.writeImages font rom)).setEnv e').turn.setPhase .run) := by rw [steps, hrelease]; rfl
  exact ⟨_, hsteps, rfl, Memory.read_writeImages hm hfont hrom, fun _ _ => rfl, rfl, rfl, rfl, rfl, rfl, rfl,
    congrArg List.tail he'⟩

end Sys2Proof.Machine
end

/-!
The family of the reset input and of the host's whole load. The reset input is `State.reset` with the display cleared, so
its values are those of O12; the whole load is one `writeImages` of memory, whose cells `Memory.read_writeImages` gives.
-/

section
namespace Sys2Proof.Machine

/-! The reset input -/

/-- Settles O11: the values of the reset state with a cleared display; the exit from `HALTED` is that of O9. -/
theorem resetInputRestoresTheResetState : Obligations.ResetInputRestoresTheResetState := by
  refine ⟨fun s he => ?_, fun s t hp h ht => ?_⟩
  · obtain ⟨hregs, hI, hpc, hsp, hDT, hST, hmem, hphase, hfault⟩ := resetStateHasTheSpecsValues
    have hoff (px py : Nat) : s.turn.assertReset.env.display.pixel px py = false :=
      Display.pixel_eq_false (fun _ => List.not_mem_nil) px py
    exact ⟨_, step_of_reset he, hregs, hI, hpc, hsp, hDT, hST, hmem, hfault, hphase, hoff⟩
  · obtain ⟨_, _, hexit⟩ := haltedCoreIsFrozen s hp
    exact hexit t h ht

/-! The host's whole load -/

/-- Both images fit exactly if each is within its bound (R282). -/
theorem fontFits_and_romFits_iff (font rom : List Byte) :
    (fontFits font && romFits rom) = true ↔ font.length ≤ 4096 ∧ rom.length ≤ 3584 := by
  rw [Bool.and_eq_true, fontFits, romFits, decide_eq_true_eq, decide_eq_true_eq, Config.maxFont, Config.maxRom]

/-- Images that fit are written, font first, and the core is released (R282). -/
theorem hostLoad_of_fits {s : State} (hfit : s.env.font.length ≤ 4096 ∧ s.env.rom.length ≤ 3584) :
    hostLoad s = .next ((s.setM (s.M.writeImages s.env.font s.env.rom)).setPhase .run) :=
  if_pos ((fontFits_and_romFits_iff s.env.font s.env.rom).mpr hfit)

/-- An image that does not fit is a `LoadError` (R243, R282). -/
theorem hostLoad_of_not_fits {s : State} (hfit : ¬ (s.env.font.length ≤ 4096 ∧ s.env.rom.length ≤ 3584)) :
    hostLoad s = .refused .loadError :=
  if_neg (mt (fontFits_and_romFits_iff s.env.font s.env.rom).mp hfit)

/-- Settles O13: the two answers of the whole load, and memory as the images leave it. -/
theorem hostLoadPlacesTheImagesAndReleases : Obligations.HostLoadPlacesTheImagesAndReleases := by
  intro s hm hp he
  have hstep : step s = hostLoad s.turn := step_of_load he hp
  refine ⟨fun hfit => ?_, fun hfit => hstep.trans (hostLoad_of_not_fits (s := s.turn) hfit)⟩
  obtain ⟨hfont, hrom⟩ := hfit
  exact ⟨_, hstep.trans (hostLoad_of_fits (s := s.turn) ⟨hfont, hrom⟩), rfl, Memory.read_writeImages hm hfont hrom,
    fun _ _ => rfl, rfl, rfl, rfl, rfl, rfl, rfl, rfl⟩

end Sys2Proof.Machine
end
